-- ==== Sys2Proof/Word.lean ====
section
/-!
DEFINITION. The machine word, the byte and the register index (00_scope.md R7, 10_state.md R10).
-/

namespace Sys2Proof

/-- A machine word: XLEN = 32 bits (R5, R7). `w.toNat` is the spec's `u(w)` and `w.toInt` its `s(w)`. -/
abbrev Word := BitVec 32

/-- The smallest addressable unit of guest memory (R30). -/
abbrev Byte := BitVec 8

/-- A general register's index, 0 to 31 (R10). -/
abbrev Reg := Fin 32

end Sys2Proof
end

