-- ==== Sys2Proof/Syntax.lean ====
section
/-!
DEFINITION. Instructions as syntax: the 47 entries of the pattern table (30_encoding.md R67), one
constructor each, with the operands of their formats (R52 to R58); the format tags and the shape of
a table entry (41_matcher_and_driver.md R100).
-/

namespace Sys2Proof

/-- The seven format tags (00_scope.md R5, 30_encoding.md R52 to R58). -/
inductive Format where
  | r
  | i
  | j
  | u
  | s
  | b
  | n
  deriving DecidableEq, Repr, Inhabited

/-- The mnemonic of a pattern entry: it names the entry's one action (R100). -/
inductive Mnemonic where
  | beq | bne | blt | bge | bltu | bgeu
  | jal | jalr
  | lb | lh | lw | lbu | lhu
  | sb | sh | sw
  | addi | slti | sltiu | xori | ori | andi | slli | srli | srai
  | add | sub | sll | slt | sltu | xor | srl | sra | or | and
  | mul | mulh | mulhsu | mulhu | div | divu | rem | remu
  | lui | auipc
  | nemuTrap | inv
  deriving DecidableEq, Repr, Inhabited

/-- A pattern entry: the pattern string, the same pattern as key and mask (R66), the format tag and
the action (R100). -/
structure Entry where
  pattern : String
  key     : Word
  mask    : Word
  tag     : Format
  action  : Mnemonic
  deriving DecidableEq, Repr, Inhabited

/-- An instruction. Offsets are the whole byte offsets of R61 and R63, their implicit zero bit
included; `imm20` is the field inst[31:12]; `inv` carries the word that no other entry matches. -/
inductive Instr where
  | beq    (rs1 rs2 : Reg) (offset : BitVec 13)
  | bne    (rs1 rs2 : Reg) (offset : BitVec 13)
  | blt    (rs1 rs2 : Reg) (offset : BitVec 13)
  | bge    (rs1 rs2 : Reg) (offset : BitVec 13)
  | bltu   (rs1 rs2 : Reg) (offset : BitVec 13)
  | bgeu   (rs1 rs2 : Reg) (offset : BitVec 13)
  | jal    (rd : Reg) (offset : BitVec 21)
  | jalr   (rd rs1 : Reg) (imm : BitVec 12)
  | lb     (rd rs1 : Reg) (imm : BitVec 12)
  | lh     (rd rs1 : Reg) (imm : BitVec 12)
  | lw     (rd rs1 : Reg) (imm : BitVec 12)
  | lbu    (rd rs1 : Reg) (imm : BitVec 12)
  | lhu    (rd rs1 : Reg) (imm : BitVec 12)
  | sb     (rs1 rs2 : Reg) (imm : BitVec 12)
  | sh     (rs1 rs2 : Reg) (imm : BitVec 12)
  | sw     (rs1 rs2 : Reg) (imm : BitVec 12)
  | addi   (rd rs1 : Reg) (imm : BitVec 12)
  | slti   (rd rs1 : Reg) (imm : BitVec 12)
  | sltiu  (rd rs1 : Reg) (imm : BitVec 12)
  | xori   (rd rs1 : Reg) (imm : BitVec 12)
  | ori    (rd rs1 : Reg) (imm : BitVec 12)
  | andi   (rd rs1 : Reg) (imm : BitVec 12)
  | slli   (rd rs1 : Reg) (shamt : BitVec 5)
  | srli   (rd rs1 : Reg) (shamt : BitVec 5)
  | srai   (rd rs1 : Reg) (shamt : BitVec 5)
  | add    (rd rs1 rs2 : Reg)
  | sub    (rd rs1 rs2 : Reg)
  | sll    (rd rs1 rs2 : Reg)
  | slt    (rd rs1 rs2 : Reg)
  | sltu   (rd rs1 rs2 : Reg)
  | xor    (rd rs1 rs2 : Reg)
  | srl    (rd rs1 rs2 : Reg)
  | sra    (rd rs1 rs2 : Reg)
  | or     (rd rs1 rs2 : Reg)
  | and    (rd rs1 rs2 : Reg)
  | mul    (rd rs1 rs2 : Reg)
  | mulh   (rd rs1 rs2 : Reg)
  | mulhsu (rd rs1 rs2 : Reg)
  | mulhu  (rd rs1 rs2 : Reg)
  | div    (rd rs1 rs2 : Reg)
  | divu   (rd rs1 rs2 : Reg)
  | rem    (rd rs1 rs2 : Reg)
  | remu   (rd rs1 rs2 : Reg)
  | lui    (rd : Reg) (imm20 : BitVec 20)
  | auipc  (rd : Reg) (imm20 : BitVec 20)
  | nemuTrap
  | inv    (word : Word)
  deriving DecidableEq, Repr, Inhabited

/-- Why bytes are no instruction. Every 32-bit word is one (R103), so the only reason is that there
are fewer than four bytes (R50). -/
inductive DecodeError where
  /-- Fewer than the four bytes of an instruction were given. -/
  | truncated
  deriving DecidableEq, Repr, Inhabited

end Sys2Proof
end

