-- ==== Sys2Proof/Decode.lean ====
section
/-!
DEFINITION. From bits to instructions and back: the bit-field extractor and sign extension
(40_extractor_and_operands.md R80 to R83), the pattern table and the first-match selection
(30_encoding.md R65 to R67, 41_matcher_and_driver.md R101 to R103), the decoder, and the encoder
written from the formats R52 to R58 and the opcode map R69.
-/

namespace Sys2Proof

/-! ## Bit fields and byte order -/

/-- The field [hi:lo] of a word as a number, for 0 <= lo <= hi <= 31 (R80). -/
def field (w : Word) (hi lo : Nat) : Nat := (w.toNat / 2 ^ lo) % 2 ^ (hi - lo + 1)

/-- `bits(word, hi, lo)`: refused outside its precondition 0 <= lo <= hi <= 31 (R80, R81). -/
def bits (w : Word) (hi lo : Nat) : Option Nat :=
  if lo ≤ hi ∧ hi ≤ 31 then some (field w hi lo) else none

/-- `sign_extend(value, width)`: the low `width` bits of `value` as a two's-complement number,
widened to a machine word; higher bits of `value` are ignored (R82). -/
def signExtend (value width : Nat) : Word :=
  let v := value % 2 ^ width
  if v / 2 ^ (width - 1) = 0 then BitVec.ofNat 32 v else BitVec.ofNat 32 (v + (2 ^ 32 - 2 ^ width))

/-- The number whose bytes, lowest address first, are given: little-endian (20_memory.md R37). -/
def ofBytesLE : List Byte → Nat
  | [] => 0
  | b :: rest => b.toNat + 256 * ofBytesLE rest

/-- The low `n` bytes of a number, lowest address first (R37). -/
def toBytesLE : Nat → Nat → List Byte
  | 0, _ => []
  | n + 1, v => BitVec.ofNat 8 v :: toBytesLE n (v / 256)

/-! ## Patterns -/

/-- The significant characters of a pattern string: blanks are separators (R65). -/
def significant (text : String) : List Char := text.toList.filter (fun c => c != ' ')

/-- The key of a list of pattern characters, leftmost most significant (R66). -/
def patternKey (cs : List Char) : Nat := cs.foldl (fun n c => 2 * n + (if c = '1' then 1 else 0)) 0

/-- The mask of a list of pattern characters, leftmost most significant (R66). -/
def patternMask (cs : List Char) : Nat := cs.foldl (fun n c => 2 * n + (if c = '?' then 0 else 1)) 0

/-- A pattern string as key and mask: exactly 32 significant characters, each `0`, `1` or `?`
(R65, R66). -/
def parsePattern (text : String) : Option (Word × Word) :=
  let cs := significant text
  if cs.length = 32 ∧ (∀ c ∈ cs, c = '0' ∨ c = '1' ∨ c = '?') then
    some (BitVec.ofNat 32 (patternKey cs), BitVec.ofNat 32 (patternMask cs))
  else none

/-- Pattern table (R67): format B branches, rows 0 to 5. -/
def branchRows : List Entry :=
  [ ⟨"??????? ????? ????? 000 ????? 11000 11", 0x00000063#32, 0x0000707f#32, .b, .beq⟩,
    ⟨"??????? ????? ????? 001 ????? 11000 11", 0x00001063#32, 0x0000707f#32, .b, .bne⟩,
    ⟨"??????? ????? ????? 100 ????? 11000 11", 0x00004063#32, 0x0000707f#32, .b, .blt⟩,
    ⟨"??????? ????? ????? 101 ????? 11000 11", 0x00005063#32, 0x0000707f#32, .b, .bge⟩,
    ⟨"??????? ????? ????? 110 ????? 11000 11", 0x00006063#32, 0x0000707f#32, .b, .bltu⟩,
    ⟨"??????? ????? ????? 111 ????? 11000 11", 0x00007063#32, 0x0000707f#32, .b, .bgeu⟩ ]

/-- Pattern table (R67): jal and jalr, rows 6 and 7. -/
def jumpRows : List Entry :=
  [ ⟨"??????? ????? ????? ??? ????? 11011 11", 0x0000006f#32, 0x0000007f#32, .j, .jal⟩,
    ⟨"??????? ????? ????? 000 ????? 11001 11", 0x00000067#32, 0x0000707f#32, .i, .jalr⟩ ]

/-- Pattern table (R67): the loads, rows 8 to 12. -/
def loadRows : List Entry :=
  [ ⟨"??????? ????? ????? 000 ????? 00000 11", 0x00000003#32, 0x0000707f#32, .i, .lb⟩,
    ⟨"??????? ????? ????? 001 ????? 00000 11", 0x00001003#32, 0x0000707f#32, .i, .lh⟩,
    ⟨"??????? ????? ????? 010 ????? 00000 11", 0x00002003#32, 0x0000707f#32, .i, .lw⟩,
    ⟨"??????? ????? ????? 100 ????? 00000 11", 0x00004003#32, 0x0000707f#32, .i, .lbu⟩,
    ⟨"??????? ????? ????? 101 ????? 00000 11", 0x00005003#32, 0x0000707f#32, .i, .lhu⟩ ]

/-- Pattern table (R67): the stores, rows 13 to 15. -/
def storeRows : List Entry :=
  [ ⟨"??????? ????? ????? 000 ????? 01000 11", 0x00000023#32, 0x0000707f#32, .s, .sb⟩,
    ⟨"??????? ????? ????? 001 ????? 01000 11", 0x00001023#32, 0x0000707f#32, .s, .sh⟩,
    ⟨"??????? ????? ????? 010 ????? 01000 11", 0x00002023#32, 0x0000707f#32, .s, .sw⟩ ]

/-- Pattern table (R67): ALU with immediate, rows 16 to 24. -/
def immediateRows : List Entry :=
  [ ⟨"??????? ????? ????? 000 ????? 00100 11", 0x00000013#32, 0x0000707f#32, .i, .addi⟩,
    ⟨"??????? ????? ????? 010 ????? 00100 11", 0x00002013#32, 0x0000707f#32, .i, .slti⟩,
    ⟨"??????? ????? ????? 011 ????? 00100 11", 0x00003013#32, 0x0000707f#32, .i, .sltiu⟩,
    ⟨"??????? ????? ????? 100 ????? 00100 11", 0x00004013#32, 0x0000707f#32, .i, .xori⟩,
    ⟨"??????? ????? ????? 110 ????? 00100 11", 0x00006013#32, 0x0000707f#32, .i, .ori⟩,
    ⟨"??????? ????? ????? 111 ????? 00100 11", 0x00007013#32, 0x0000707f#32, .i, .andi⟩,
    ⟨"0000000 ????? ????? 001 ????? 00100 11", 0x00001013#32, 0xfe00707f#32, .i, .slli⟩,
    ⟨"0000000 ????? ????? 101 ????? 00100 11", 0x00005013#32, 0xfe00707f#32, .i, .srli⟩,
    ⟨"0100000 ????? ????? 101 ????? 00100 11", 0x40005013#32, 0xfe00707f#32, .i, .srai⟩ ]

/-- Pattern table (R67): ALU register-register, rows 25 to 34. -/
def registerRows : List Entry :=
  [ ⟨"0000000 ????? ????? 000 ????? 01100 11", 0x00000033#32, 0xfe00707f#32, .r, .add⟩,
    ⟨"0100000 ????? ????? 000 ????? 01100 11", 0x40000033#32, 0xfe00707f#32, .r, .sub⟩,
    ⟨"0000000 ????? ????? 001 ????? 01100 11", 0x00001033#32, 0xfe00707f#32, .r, .sll⟩,
    ⟨"0000000 ????? ????? 010 ????? 01100 11", 0x00002033#32, 0xfe00707f#32, .r, .slt⟩,
    ⟨"0000000 ????? ????? 011 ????? 01100 11", 0x00003033#32, 0xfe00707f#32, .r, .sltu⟩,
    ⟨"0000000 ????? ????? 100 ????? 01100 11", 0x00004033#32, 0xfe00707f#32, .r, .xor⟩,
    ⟨"0000000 ????? ????? 101 ????? 01100 11", 0x00005033#32, 0xfe00707f#32, .r, .srl⟩,
    ⟨"0100000 ????? ????? 101 ????? 01100 11", 0x40005033#32, 0xfe00707f#32, .r, .sra⟩,
    ⟨"0000000 ????? ????? 110 ????? 01100 11", 0x00006033#32, 0xfe00707f#32, .r, .or⟩,
    ⟨"0000000 ????? ????? 111 ????? 01100 11", 0x00007033#32, 0xfe00707f#32, .r, .and⟩ ]

/-- Pattern table (R67): multiply and divide, rows 35 to 42. -/
def mulDivRows : List Entry :=
  [ ⟨"0000001 ????? ????? 000 ????? 01100 11", 0x02000033#32, 0xfe00707f#32, .r, .mul⟩,
    ⟨"0000001 ????? ????? 001 ????? 01100 11", 0x02001033#32, 0xfe00707f#32, .r, .mulh⟩,
    ⟨"0000001 ????? ????? 010 ????? 01100 11", 0x02002033#32, 0xfe00707f#32, .r, .mulhsu⟩,
    ⟨"0000001 ????? ????? 011 ????? 01100 11", 0x02003033#32, 0xfe00707f#32, .r, .mulhu⟩,
    ⟨"0000001 ????? ????? 100 ????? 01100 11", 0x02004033#32, 0xfe00707f#32, .r, .div⟩,
    ⟨"0000001 ????? ????? 101 ????? 01100 11", 0x02005033#32, 0xfe00707f#32, .r, .divu⟩,
    ⟨"0000001 ????? ????? 110 ????? 01100 11", 0x02006033#32, 0xfe00707f#32, .r, .rem⟩,
    ⟨"0000001 ????? ????? 111 ????? 01100 11", 0x02007033#32, 0xfe00707f#32, .r, .remu⟩ ]

/-- Pattern table (R67): upper immediate, rows 43 and 44. -/
def upperRows : List Entry :=
  [ ⟨"??????? ????? ????? ??? ????? 01101 11", 0x00000037#32, 0x0000007f#32, .u, .lui⟩,
    ⟨"??????? ????? ????? ??? ????? 00101 11", 0x00000017#32, 0x0000007f#32, .u, .auipc⟩ ]

/-- Pattern table (R67): the trap, row 45. -/
def trapRows : List Entry :=
  [ ⟨"0000000 00001 00000 000 00000 11100 11", 0x00100073#32, 0xffffffff#32, .n, .nemuTrap⟩ ]

/-- Row 46, the catch-all, declared last (R67, R103). -/
def catchAll : Entry := ⟨"??????? ????? ????? ??? ????? ????? ??", 0x00000000#32, 0x00000000#32, .n, .inv⟩

/-- Rows 0 to 45 in declaration order (R67). -/
def rows : List Entry :=
  branchRows ++ jumpRows ++ loadRows ++ storeRows ++ immediateRows ++ registerRows ++ mulDivRows ++
    upperRows ++ trapRows

/-- The pattern table: 47 entries, index 0 tried first (R67, R100). -/
def patternTable : List Entry := rows ++ [catchAll]

/-- The match predicate `(inst & mask) = key` (R101). -/
def Entry.hits (e : Entry) (w : Word) : Bool := (w &&& e.mask) == e.key

/-- The selected entry: the first that matches (R102). The catch-all matches everything (R103), so
the default is never used. -/
def select (w : Word) : Entry := (patternTable.find? (fun e => e.hits w)).getD catchAll

/-- `sel(inst)`, the index of the selected entry (R102). -/
def sel (w : Word) : Nat := patternTable.findIdx (fun e => e.hits w)

/-! ## Fields of an instruction word -/

/-- The five bits of a word from bit `lo` up, as a register index. -/
def regField (w : Word) (lo : Nat) : Reg := Fin.ofNat 32 (w.extractLsb' lo 5).toNat

/-- rd = inst[11:7], cut from every word (R51, R110). -/
def rdField (w : Word) : Reg := regField w 7

/-- rs1 = inst[19:15] (R51). -/
def rs1Field (w : Word) : Reg := regField w 15

/-- rs2 = inst[24:20] (R51). -/
def rs2Field (w : Word) : Reg := regField w 20

/-- imm[11:0] of format I (R53). -/
def immI (w : Word) : BitVec 12 := w.extractLsb' 20 12

/-- The shift amount of slli, srli and srai: inst[24:20] (R53). -/
def shamtField (w : Word) : BitVec 5 := w.extractLsb' 20 5

/-- imm[11:5] and imm[4:0] of format S (R54). -/
def immS (w : Word) : BitVec 12 := w.extractLsb' 25 7 ++ w.extractLsb' 7 5

/-- The 13-bit byte offset of format B, bit 0 zero (R55, R63). -/
def immB (w : Word) : BitVec 13 :=
  w.extractLsb' 31 1 ++ w.extractLsb' 7 1 ++ w.extractLsb' 25 6 ++ w.extractLsb' 8 4 ++ 0#1

/-- imm[31:12] of format U (R56). -/
def immU (w : Word) : BitVec 20 := w.extractLsb' 12 20

/-- The 21-bit byte offset of format J, bit 0 zero (R57, R61). -/
def immJ (w : Word) : BitVec 21 :=
  w.extractLsb' 31 1 ++ w.extractLsb' 12 8 ++ w.extractLsb' 20 1 ++ w.extractLsb' 21 10 ++ 0#1

/-! ## The decoder -/

/-- The instruction of a word whose selected entry has the given action. -/
def build (m : Mnemonic) (w : Word) : Instr :=
  match m with
  | .beq => .beq (rs1Field w) (rs2Field w) (immB w)
  | .bne => .bne (rs1Field w) (rs2Field w) (immB w)
  | .blt => .blt (rs1Field w) (rs2Field w) (immB w)
  | .bge => .bge (rs1Field w) (rs2Field w) (immB w)
  | .bltu => .bltu (rs1Field w) (rs2Field w) (immB w)
  | .bgeu => .bgeu (rs1Field w) (rs2Field w) (immB w)
  | .jal => .jal (rdField w) (immJ w)
  | .jalr => .jalr (rdField w) (rs1Field w) (immI w)
  | .lb => .lb (rdField w) (rs1Field w) (immI w)
  | .lh => .lh (rdField w) (rs1Field w) (immI w)
  | .lw => .lw (rdField w) (rs1Field w) (immI w)
  | .lbu => .lbu (rdField w) (rs1Field w) (immI w)
  | .lhu => .lhu (rdField w) (rs1Field w) (immI w)
  | .sb => .sb (rs1Field w) (rs2Field w) (immS w)
  | .sh => .sh (rs1Field w) (rs2Field w) (immS w)
  | .sw => .sw (rs1Field w) (rs2Field w) (immS w)
  | .addi => .addi (rdField w) (rs1Field w) (immI w)
  | .slti => .slti (rdField w) (rs1Field w) (immI w)
  | .sltiu => .sltiu (rdField w) (rs1Field w) (immI w)
  | .xori => .xori (rdField w) (rs1Field w) (immI w)
  | .ori => .ori (rdField w) (rs1Field w) (immI w)
  | .andi => .andi (rdField w) (rs1Field w) (immI w)
  | .slli => .slli (rdField w) (rs1Field w) (shamtField w)
  | .srli => .srli (rdField w) (rs1Field w) (shamtField w)
  | .srai => .srai (rdField w) (rs1Field w) (shamtField w)
  | .add => .add (rdField w) (rs1Field w) (rs2Field w)
  | .sub => .sub (rdField w) (rs1Field w) (rs2Field w)
  | .sll => .sll (rdField w) (rs1Field w) (rs2Field w)
  | .slt => .slt (rdField w) (rs1Field w) (rs2Field w)
  | .sltu => .sltu (rdField w) (rs1Field w) (rs2Field w)
  | .xor => .xor (rdField w) (rs1Field w) (rs2Field w)
  | .srl => .srl (rdField w) (rs1Field w) (rs2Field w)
  | .sra => .sra (rdField w) (rs1Field w) (rs2Field w)
  | .or => .or (rdField w) (rs1Field w) (rs2Field w)
  | .and => .and (rdField w) (rs1Field w) (rs2Field w)
  | .mul => .mul (rdField w) (rs1Field w) (rs2Field w)
  | .mulh => .mulh (rdField w) (rs1Field w) (rs2Field w)
  | .mulhsu => .mulhsu (rdField w) (rs1Field w) (rs2Field w)
  | .mulhu => .mulhu (rdField w) (rs1Field w) (rs2Field w)
  | .div => .div (rdField w) (rs1Field w) (rs2Field w)
  | .divu => .divu (rdField w) (rs1Field w) (rs2Field w)
  | .rem => .rem (rdField w) (rs1Field w) (rs2Field w)
  | .remu => .remu (rdField w) (rs1Field w) (rs2Field w)
  | .lui => .lui (rdField w) (immU w)
  | .auipc => .auipc (rdField w) (immU w)
  | .nemuTrap => .nemuTrap
  | .inv => .inv w

/-- Every 32-bit word is one instruction: the first matching entry's (R102, R103). -/
def decodeWord (w : Word) : Instr := build (select w).action w

/-- An instruction from bytes, lowest address first, with the bytes after it (R50, R37). -/
def decode : List Byte → Except DecodeError (Instr × List Byte)
  | b0 :: b1 :: b2 :: b3 :: rest => .ok (decodeWord (BitVec.ofNat 32 (ofBytesLE [b0, b1, b2, b3])), rest)
  | _ => .error .truncated

/-- The instruction read from a row's bits, laid out as memory holds them: `nbits` bits of `w`, zeros
above them, four little-endian bytes. -/
def decodeTableWord (nbits w : Nat) : Option Instr :=
  match decode (toBytesLE 4 (w % 2 ^ nbits)) with
  | .ok (i, _) => some i
  | .error _ => none

/-! ## The encoder -/

/-- A register index as the five bits of its field. -/
def regBits (r : Reg) : BitVec 5 := BitVec.ofNat 5 r.val

/-- Format R (R52). -/
def encodeR (funct7 : BitVec 7) (rs2 rs1 : Reg) (funct3 : BitVec 3) (rd : Reg) (opcode : BitVec 7) : Word :=
  funct7 ++ regBits rs2 ++ regBits rs1 ++ funct3 ++ regBits rd ++ opcode

/-- Format I (R53). -/
def encodeI (imm : BitVec 12) (rs1 : Reg) (funct3 : BitVec 3) (rd : Reg) (opcode : BitVec 7) : Word :=
  imm ++ regBits rs1 ++ funct3 ++ regBits rd ++ opcode

/-- Format S (R54). -/
def encodeS (imm : BitVec 12) (rs2 rs1 : Reg) (funct3 : BitVec 3) (opcode : BitVec 7) : Word :=
  imm.extractLsb' 5 7 ++ regBits rs2 ++ regBits rs1 ++ funct3 ++ imm.extractLsb' 0 5 ++ opcode

/-- Format B (R55). -/
def encodeB (off : BitVec 13) (rs2 rs1 : Reg) (funct3 : BitVec 3) (opcode : BitVec 7) : Word :=
  off.extractLsb' 12 1 ++ off.extractLsb' 5 6 ++ regBits rs2 ++ regBits rs1 ++ funct3 ++
    off.extractLsb' 1 4 ++ off.extractLsb' 11 1 ++ opcode

/-- Format U (R56). -/
def encodeU (imm20 : BitVec 20) (rd : Reg) (opcode : BitVec 7) : Word := imm20 ++ regBits rd ++ opcode

/-- Format J (R57). -/
def encodeJ (off : BitVec 21) (rd : Reg) (opcode : BitVec 7) : Word :=
  off.extractLsb' 20 1 ++ off.extractLsb' 1 10 ++ off.extractLsb' 11 1 ++ off.extractLsb' 12 8 ++
    regBits rd ++ opcode

/-- The word of an instruction: formats R52 to R58, opcode, funct3 and funct7 of R69, trap word of
R70. -/
def encode (i : Instr) : Word :=
  match i with
  | .beq rs1 rs2 off => encodeB off rs2 rs1 0b000#3 0b1100011#7
  | .bne rs1 rs2 off => encodeB off rs2 rs1 0b001#3 0b1100011#7
  | .blt rs1 rs2 off => encodeB off rs2 rs1 0b100#3 0b1100011#7
  | .bge rs1 rs2 off => encodeB off rs2 rs1 0b101#3 0b1100011#7
  | .bltu rs1 rs2 off => encodeB off rs2 rs1 0b110#3 0b1100011#7
  | .bgeu rs1 rs2 off => encodeB off rs2 rs1 0b111#3 0b1100011#7
  | .jal rd off => encodeJ off rd 0b1101111#7
  | .jalr rd rs1 imm => encodeI imm rs1 0b000#3 rd 0b1100111#7
  | .lb rd rs1 imm => encodeI imm rs1 0b000#3 rd 0b0000011#7
  | .lh rd rs1 imm => encodeI imm rs1 0b001#3 rd 0b0000011#7
  | .lw rd rs1 imm => encodeI imm rs1 0b010#3 rd 0b0000011#7
  | .lbu rd rs1 imm => encodeI imm rs1 0b100#3 rd 0b0000011#7
  | .lhu rd rs1 imm => encodeI imm rs1 0b101#3 rd 0b0000011#7
  | .sb rs1 rs2 imm => encodeS imm rs2 rs1 0b000#3 0b0100011#7
  | .sh rs1 rs2 imm => encodeS imm rs2 rs1 0b001#3 0b0100011#7
  | .sw rs1 rs2 imm => encodeS imm rs2 rs1 0b010#3 0b0100011#7
  | .addi rd rs1 imm => encodeI imm rs1 0b000#3 rd 0b0010011#7
  | .slti rd rs1 imm => encodeI imm rs1 0b010#3 rd 0b0010011#7
  | .sltiu rd rs1 imm => encodeI imm rs1 0b011#3 rd 0b0010011#7
  | .xori rd rs1 imm => encodeI imm rs1 0b100#3 rd 0b0010011#7
  | .ori rd rs1 imm => encodeI imm rs1 0b110#3 rd 0b0010011#7
  | .andi rd rs1 imm => encodeI imm rs1 0b111#3 rd 0b0010011#7
  | .slli rd rs1 shamt => encodeI (0b0000000#7 ++ shamt) rs1 0b001#3 rd 0b0010011#7
  | .srli rd rs1 shamt => encodeI (0b0000000#7 ++ shamt) rs1 0b101#3 rd 0b0010011#7
  | .srai rd rs1 shamt => encodeI (0b0100000#7 ++ shamt) rs1 0b101#3 rd 0b0010011#7
  | .add rd rs1 rs2 => encodeR 0b0000000#7 rs2 rs1 0b000#3 rd 0b0110011#7
  | .sub rd rs1 rs2 => encodeR 0b0100000#7 rs2 rs1 0b000#3 rd 0b0110011#7
  | .sll rd rs1 rs2 => encodeR 0b0000000#7 rs2 rs1 0b001#3 rd 0b0110011#7
  | .slt rd rs1 rs2 => encodeR 0b0000000#7 rs2 rs1 0b010#3 rd 0b0110011#7
  | .sltu rd rs1 rs2 => encodeR 0b0000000#7 rs2 rs1 0b011#3 rd 0b0110011#7
  | .xor rd rs1 rs2 => encodeR 0b0000000#7 rs2 rs1 0b100#3 rd 0b0110011#7
  | .srl rd rs1 rs2 => encodeR 0b0000000#7 rs2 rs1 0b101#3 rd 0b0110011#7
  | .sra rd rs1 rs2 => encodeR 0b0100000#7 rs2 rs1 0b101#3 rd 0b0110011#7
  | .or rd rs1 rs2 => encodeR 0b0000000#7 rs2 rs1 0b110#3 rd 0b0110011#7
  | .and rd rs1 rs2 => encodeR 0b0000000#7 rs2 rs1 0b111#3 rd 0b0110011#7
  | .mul rd rs1 rs2 => encodeR 0b0000001#7 rs2 rs1 0b000#3 rd 0b0110011#7
  | .mulh rd rs1 rs2 => encodeR 0b0000001#7 rs2 rs1 0b001#3 rd 0b0110011#7
  | .mulhsu rd rs1 rs2 => encodeR 0b0000001#7 rs2 rs1 0b010#3 rd 0b0110011#7
  | .mulhu rd rs1 rs2 => encodeR 0b0000001#7 rs2 rs1 0b011#3 rd 0b0110011#7
  | .div rd rs1 rs2 => encodeR 0b0000001#7 rs2 rs1 0b100#3 rd 0b0110011#7
  | .divu rd rs1 rs2 => encodeR 0b0000001#7 rs2 rs1 0b101#3 rd 0b0110011#7
  | .rem rd rs1 rs2 => encodeR 0b0000001#7 rs2 rs1 0b110#3 rd 0b0110011#7
  | .remu rd rs1 rs2 => encodeR 0b0000001#7 rs2 rs1 0b111#3 rd 0b0110011#7
  | .lui rd imm20 => encodeU imm20 rd 0b0110111#7
  | .auipc rd imm20 => encodeU imm20 rd 0b0010111#7
  | .nemuTrap => 0x00100073#32
  | .inv w => w

/-- The four bytes of an instruction, lowest address first (R50, R37). -/
def encodeBytes (i : Instr) : List Byte := toBytesLE 4 (encode i).toNat

/-- The mnemonic of an instruction. -/
def Instr.mnemonic (i : Instr) : Mnemonic :=
  match i with
  | .beq _ _ _ => .beq
  | .bne _ _ _ => .bne
  | .blt _ _ _ => .blt
  | .bge _ _ _ => .bge
  | .bltu _ _ _ => .bltu
  | .bgeu _ _ _ => .bgeu
  | .jal _ _ => .jal
  | .jalr _ _ _ => .jalr
  | .lb _ _ _ => .lb
  | .lh _ _ _ => .lh
  | .lw _ _ _ => .lw
  | .lbu _ _ _ => .lbu
  | .lhu _ _ _ => .lhu
  | .sb _ _ _ => .sb
  | .sh _ _ _ => .sh
  | .sw _ _ _ => .sw
  | .addi _ _ _ => .addi
  | .slti _ _ _ => .slti
  | .sltiu _ _ _ => .sltiu
  | .xori _ _ _ => .xori
  | .ori _ _ _ => .ori
  | .andi _ _ _ => .andi
  | .slli _ _ _ => .slli
  | .srli _ _ _ => .srli
  | .srai _ _ _ => .srai
  | .add _ _ _ => .add
  | .sub _ _ _ => .sub
  | .sll _ _ _ => .sll
  | .slt _ _ _ => .slt
  | .sltu _ _ _ => .sltu
  | .xor _ _ _ => .xor
  | .srl _ _ _ => .srl
  | .sra _ _ _ => .sra
  | .or _ _ _ => .or
  | .and _ _ _ => .and
  | .mul _ _ _ => .mul
  | .mulh _ _ _ => .mulh
  | .mulhsu _ _ _ => .mulhsu
  | .mulhu _ _ _ => .mulhu
  | .div _ _ _ => .div
  | .divu _ _ _ => .divu
  | .rem _ _ _ => .rem
  | .remu _ _ _ => .remu
  | .lui _ _ => .lui
  | .auipc _ _ => .auipc
  | .nemuTrap => .nemuTrap
  | .inv _ => .inv

/-- The format tag of a mnemonic's entry (R67). -/
def Mnemonic.tag (m : Mnemonic) : Format :=
  match m with
  | .beq | .bne | .blt | .bge | .bltu | .bgeu => .b
  | .jal => .j
  | .jalr | .lb | .lh | .lw | .lbu | .lhu => .i
  | .sb | .sh | .sw => .s
  | .addi | .slti | .sltiu | .xori | .ori | .andi | .slli | .srli | .srai => .i
  | .add | .sub | .sll | .slt | .sltu | .xor | .srl | .sra | .or | .and => .r
  | .mul | .mulh | .mulhsu | .mulhu | .div | .divu | .rem | .remu => .r
  | .lui | .auipc => .u
  | .nemuTrap | .inv => .n

end Sys2Proof
end

