-- ==== Sys2Proof/Config.lean ====
section
/-!
DEFINITION. What an implementation fixes (00_scope.md R5): the spec's named constants, its OPEN
parameters as plain data, and the uninterpreted values, which have no body.
-/

namespace Sys2Proof

/-- The three kinds of memory request (60_exceptions.md R243). -/
inductive AccessKind where
  | fetch
  | read
  | write
  deriving DecidableEq, Repr, Inhabited

/-- The access lengths the interface knows: 1, 2 and 4 bytes (20_memory.md R32, R33). -/
inductive AccessLen where
  | one
  | two
  | four
  deriving DecidableEq, Repr, Inhabited

/-- The four instructions whose corner results `DivPolicy` gives (46_muldiv.md R201). -/
inductive DivOp where
  | div
  | divu
  | rem
  | remu
  deriving DecidableEq, Repr, Inhabited

/-- The `mode` argument of a data access: an uninterpreted token (20_memory.md R34). -/
structure MemMode where
  token : Nat
  deriving DecidableEq, Repr, Inhabited

/-- Which requests the memory collaborator serves, the OPEN parameter `MemAdmit` (R38, R40). -/
inductive AdmitPolicy where
  /-- The reference collaborator of R40: RAM from 0x80000000 up to 0x88000000, all else faults. -/
  | referenceRam
  /-- Any collaborator at all: `Config.memAdmit`, of which nothing can be proved. -/
  | uninterpreted
  deriving DecidableEq, Repr, Inhabited

/-- The division corner results, the OPEN parameter `DivPolicy` (R201). -/
inductive DivPolicy where
  /-- The default table of R201. -/
  | specDefault
  /-- Any policy at all: `Config.divCorner`, of which nothing can be proved. -/
  | uninterpreted
  deriving DecidableEq, Repr, Inhabited

/-- The OPEN parameters of R5 that a run takes as arguments. No step changes them. -/
structure Params where
  memAdmit  : AdmitPolicy
  divPolicy : DivPolicy
  resetPc   : Word
  deriving DecidableEq, Repr, Inhabited

namespace Config

/-- `RETREG`, the designated return-value register: 10 (R5). -/
def retReg : Reg := 10

/-- The default of `RESET_PC` (R5, R24). -/
def resetPc : Word := 0x80000000#32

/-- The first address of the reference RAM (R40). -/
def ramBase : Nat := 0x80000000

/-- The address after the last one of the reference RAM (R40). -/
def ramEnd : Nat := 0x88000000

/-- What a byte of memory that nothing has written reads as: R40's "contents zero" (log entry 4). -/
def unlistedByte : Byte := 0#8

/-- `MemAdmit` left open: any verdict on (kind, address, length) (R38, log entry 5). -/
opaque memAdmit : AccessKind → Word → AccessLen → Bool

/-- `DivPolicy` left open: any result in a division corner (R201, log entry 6). -/
opaque divCorner : DivOp → Word → Word → Word

/-- `MEM_MODE`, the token passed with every data access (R34, log entry 8). -/
opaque memMode : MemMode

/-- The n-th free value: the three program counters after a terminal condition, which R250 leaves
unspecified (log entry 7). -/
opaque freeWord : Nat → Word

end Config

/-- The parameters at the spec's own defaults (R5). -/
def Params.default : Params :=
  { memAdmit := .referenceRam, divPolicy := .specDefault, resetPc := Config.resetPc }

end Sys2Proof
end

