-- ==== Sys2Proof/Machine/State.lean ====
section
/-!
DEFINITION. The machine's state as plain data (10_state.md R10 to R24), its terminal conditions
(60_exceptions.md R240 to R243), the ways a step can stop, and the state after reset.
-/

namespace Sys2Proof.Machine

/-- The three terminal conditions; each ends the run (R240 to R243). -/
inductive Condition where
  /-- Raised by `inv`: the word at `pc` matches no entry but the catch-all (R241). -/
  | invalid (pc : Word)
  /-- Raised by `nemu_trap`: the program ended, with `x[RETREG]` as exit code (R242). -/
  | ended (pc code : Word)
  /-- Raised by a fetch, load or store that the memory collaborator refuses (R243). -/
  | memFault (kind : AccessKind) (addr : Word) (len : AccessLen)
  deriving DecidableEq, Repr, Inhabited

/-- The run status (10_state.md R22). -/
inductive RunStatus where
  | running
  | terminated (c : Condition)
  deriving DecidableEq, Repr, Inhabited

/-- Guest memory: (address, byte) pairs in canonical form (`Memory.wf` in Ops.lean); an address not
listed reads as `Config.unlistedByte`. -/
abbrev Memory := List Host.Cell

/-- The decoded operand bundle of one step (40_extractor_and_operands.md R84). -/
structure Bundle where
  src1 : Word
  src2 : Word
  imm  : Word
  deriving DecidableEq, Repr, Inhabited

/-- The processor-visible state (R19), the run status (R22), guest memory (R30), the parameters a run
takes (00_scope.md R5), and the model's own counter of free values. -/
structure State where
  /-- x[0] to x[31] (R10). -/
  regs : Vector Word 32
  /-- The current instruction's address (R14). -/
  pc : Word
  /-- The sequential next pc, the fetch cursor (R15). -/
  snpc : Word
  /-- The dynamic next pc (R16). -/
  dnpc : Word
  /-- Running, or the terminal condition that ended the run (R22). -/
  status : RunStatus
  /-- Guest memory (R30). -/
  mem : Memory
  /-- The OPEN parameters (R5); no step changes them. -/
  params : Params
  /-- THE MODEL'S OWN: how many free values have been drawn (log entry 7). -/
  freeCount : Nat
  deriving DecidableEq, Repr

/-- How a step can stop with a fault. -/
inductive Fault where
  /-- Raised by `step` alone, on a state whose run a terminal condition has already ended: no further
  step is taken in that run (R249). Safe: the machine stops where the spec takes no step. -/
  | runOver (c : Condition)
  deriving DecidableEq, Repr

/-- How a step can be refused. -/
inductive Refusal where
  /-- Raised by an arm of `exec` for an instruction that has no meaning yet. No arm of this model
  does. Safe: the machine stops. -/
  | notModelled (mnemonic : String)
  deriving DecidableEq, Repr

/-- What one instruction or one step answers. -/
abbrev StepOutcome := Host.Outcome State Fault Refusal

/-- Reset for a given choice of everything the spec leaves open (R24, R270): the parameters, the
values of x[1] to x[31], the memory the host has loaded, and how many free values have been drawn before.
DESIGN CHOICE: two runs that start with the same count draw the same free values (log entry 7). -/
def State.resetWith (p : Params) (xs : Vector Word 31) (m : Memory) (drawn : Nat) : State :=
  { regs := Vector.ofFn (Fin.cases 0#32 (fun k => xs[k])), pc := p.resetPc, snpc := 0#32, dnpc := 0#32,
    status := .running, mem := m, params := p, freeCount := drawn }

/-- The machine right after reset, at the spec's default parameters; the values of x[1] to x[31]
are the model's choice (log entry 1). -/
def State.reset : State := State.resetWith Params.default (Vector.replicate 31 0#32) [] 0

end Sys2Proof.Machine
end

