-- ==== Sys2Proof/Machine/Ops.lean ====
section
/-!
DEFINITION. The named operations over registers, memory and the program counters, the raising of a
terminal condition, and the driver's parts of a step (10_state.md, 20_memory.md,
41_matcher_and_driver.md R108 to R115, 60_exceptions.md).
-/

namespace Sys2Proof.Machine

/-! ## Registers -/

/-- `x[i]` (R10). -/
def State.readReg (s : State) (r : Reg) : Word := s.regs[r]

/-- `x[i] <- v` (R12). A write to register 0 is discarded, which 90_conflicts.md C5 allows: the
driver's step 5 would undo it before anything could read it. -/
def State.writeReg (s : State) (r : Reg) (v : Word) : State :=
  if r = 0 then s else { s with regs := s.regs.set r v }

/-- Step 5 of the driver: `x[0] <- 0`, unconditionally (R112). -/
def State.forceZero (s : State) : State := { s with regs := s.regs.set 0 0#32 }

/-! ## Program counters -/

/-- `dnpc <- target`, the override of a control transfer (R16). -/
def State.setDnpc (s : State) (target : Word) : State := { s with dnpc := target }

/-- The address of the following instruction, modulo 2^32 (R15, R18). -/
def nextPc (pc : Word) : Word := pc + 4#32

/-! ## Terminal conditions -/

/-- `raise c`: the condition is signalled to the monitor, which ends the run; nothing else changes
(R247, R248). There is no vector, no saved register and no return (R247, R249). -/
def State.raise (s : State) (c : Condition) : State := { s with status := .terminated c }

/-- After a terminal condition the three program counters are unspecified (R250): each takes a free
value (log entry 7). -/
def State.releasePcs (s : State) : State :=
  { s with
    pc := Config.freeWord s.freeCount
    snpc := Config.freeWord (s.freeCount + 1)
    dnpc := Config.freeWord (s.freeCount + 2)
    freeCount := s.freeCount + 3 }

/-! ## Memory as data -/

/-- The canonical form: addresses strictly rising and below 2^32, no entry equal to what an unlisted
address reads as. -/
abbrev Memory.wf (m : Memory) : Prop :=
  m.Pairwise (fun c d => c.1 < d.1) ∧ ∀ c ∈ m, c.1 < 2 ^ 32 ∧ c.2 ≠ Config.unlistedByte

/-- The byte at an address. -/
def Memory.byteAt : Memory → Nat → Byte
  | [], _ => Config.unlistedByte
  | (k, b) :: rest, a => if k = a then b else Memory.byteAt rest a

/-- Puts a byte at the front of a canonical memory whose addresses are all higher. -/
def Memory.consByte (a : Nat) (v : Byte) (m : Memory) : Memory :=
  if v = Config.unlistedByte then m else (a, v) :: m

/-- Stores one byte and keeps the canonical form. -/
def Memory.setByte : Memory → Nat → Byte → Memory
  | [], a, v => Memory.consByte a v []
  | (k, b) :: rest, a, v =>
    if a < k then Memory.consByte a v ((k, b) :: rest)
    else if a = k then Memory.consByte a v rest
    else (k, b) :: Memory.setByte rest a v

/-- `n` bytes from an address up; the byte addresses wrap modulo 2^32 (R37, log entry 9). -/
def Memory.readBytes (m : Memory) (addr : Word) : Nat → List Byte
  | 0 => []
  | n + 1 => m.byteAt addr.toNat :: Memory.readBytes m (addr + 1#32) n

/-- Stores bytes from an address up; the byte addresses wrap modulo 2^32 (R37, log entry 9). -/
def Memory.writeBytes (m : Memory) (addr : Word) : List Byte → Memory
  | [] => m
  | b :: rest => Memory.writeBytes (m.setByte addr.toNat b) (addr + 1#32) rest

/-! ## The memory interface -/

/-- An access length in bytes. -/
def AccessLen.bytes (n : AccessLen) : Nat :=
  match n with
  | .one => 1
  | .two => 2
  | .four => 4

/-- `MemAdmit(kind, addr, n)`: the collaborator serves the request (R38). The reference collaborator
admits exactly the accesses that lie inside its RAM, aligned or not (R40). -/
def State.admits (s : State) (kind : AccessKind) (addr : Word) (n : AccessLen) : Bool :=
  match s.params.memAdmit with
  | .referenceRam => decide (Config.ramBase ≤ addr.toNat ∧ addr.toNat + AccessLen.bytes n ≤ Config.ramEnd)
  | .uninterpreted => Config.memAdmit kind addr n

/-- `read(addr, length, mode)`: an unsigned number below 2^(8n), or a fault (R32). The token `mode`
has no meaning of its own (R34). -/
def State.read (s : State) (kind : AccessKind) (addr : Word) (n : AccessLen) (_mode : MemMode) :
    Except Condition Nat :=
  if s.admits kind addr n then .ok (ofBytesLE (s.mem.readBytes addr (AccessLen.bytes n)))
  else .error (.memFault kind addr n)

/-- `write(addr, length, value, mode)`: the low bytes of the value, all of them or none (R33). -/
def State.write (s : State) (addr : Word) (n : AccessLen) (v : Nat) (_mode : MemMode) :
    Except Condition State :=
  if s.admits .write addr n then
    .ok { s with mem := s.mem.writeBytes addr (toBytesLE (AccessLen.bytes n) v) }
  else .error (.memFault .write addr n)

/-- `MemRead(addr, n)` (R32). -/
def State.memRead (s : State) (addr : Word) (n : AccessLen) : Except Condition Nat :=
  s.read .read addr n Config.memMode

/-- `MemWrite(addr, n, v)` (R33). -/
def State.memWrite (s : State) (addr : Word) (n : AccessLen) (v : Nat) : Except Condition State :=
  s.write addr n v Config.memMode

/-- A load: reads, widens, writes x[rd]; a read that faults writes nothing and ends the run (R149). -/
def State.load (s : State) (rd : Reg) (addr : Word) (n : AccessLen) (widen : Nat → Word) : State :=
  match s.memRead addr n with
  | .ok v => s.writeReg rd (widen v)
  | .error c => s.raise c

/-- A store; a write that faults leaves memory unchanged and ends the run (R149). -/
def State.store (s : State) (addr : Word) (n : AccessLen) (v : Nat) : State :=
  match s.memWrite addr n v with
  | .ok t => t
  | .error c => s.raise c

/-! ## The driver's parts of a step -/

/-- Before a step the cursor is set to `pc` (R17, R115). -/
def State.setCursor (s : State) : State := { s with snpc := s.pc }

/-- Step 1: `inst <- Fetch(snpc, 4); snpc <- snpc + 4`, or a fault that changes no state (R31,
R108). -/
def State.fetch (s : State) : Except Condition (Word × State) :=
  match s.read .fetch s.snpc .four Config.memMode with
  | .ok v => .ok (BitVec.ofNat 32 v, { s with snpc := nextPc s.snpc })
  | .error c => .error c

/-- Step 2: `dnpc := snpc` (R109). -/
def State.defaultDnpc (s : State) : State := { s with dnpc := s.snpc }

/-- Step 5 is reached unless the action raised a memory fault (R111, R149, R250). -/
def State.reachesStep5 (s : State) : Bool :=
  match s.status with
  | .terminated (.memFault _ _ _) => false
  | .terminated (.invalid _) | .terminated (.ended _ _) | .running => true

/-- Steps 5 and 6 after the action (R112, R113). -/
def State.finishStep (s : State) : State := if s.reachesStep5 then s.forceZero else s

/-- After a step: Continue commits `pc <- dnpc`; a terminal condition does not, and leaves the
program counters unspecified (R115, R250). -/
def State.commit (s : State) : State :=
  match s.status with
  | .running => { s with pc := s.dnpc }
  | .terminated _ => s.releasePcs

/-- Applies a function to the next state of an outcome. -/
def mapNext (f : State → State) (o : StepOutcome) : StepOutcome :=
  match o with
  | .next s => .next (f s)
  | .fault r => .fault r
  | .refused r => .refused r

/-- A new run, the host's act after a terminal condition: a reset (R249, R271). The host chooses the
memory, and nothing is known of x[1] to x[31]. The model's counter goes on, so a new run draws other free
values than the runs before it (log entry 7). -/
def State.newRun (s : State) (xs : Vector Word 31) (m : Memory) : State :=
  State.resetWith s.params xs m s.freeCount

end Sys2Proof.Machine
end

