-- ==== Sys2Proof/Machine/Operands.lean ====
section
/-!
DEFINITION. The operand decoder: one operand form per format tag, and the multiplexer over an
instruction word that the tag steers (40_extractor_and_operands.md R84 to R92).
-/

namespace Sys2Proof.Machine

/-! ## The operand forms of decoded instructions -/

/-- Tag R (R90). -/
def State.operandsR (s : State) (rs1 rs2 : Reg) : Bundle :=
  { src1 := s.readReg rs1, src2 := s.readReg rs2, imm := 0#32 }

/-- Tag I: `src2` is the immediate (R85). -/
def State.operandsI (s : State) (rs1 : Reg) (imm : BitVec 12) : Bundle :=
  { src1 := s.readReg rs1, src2 := imm.signExtend 32, imm := imm.signExtend 32 }

/-- Tag S (R88). -/
def State.operandsS (s : State) (rs1 rs2 : Reg) (imm : BitVec 12) : Bundle :=
  { src1 := s.readReg rs1, src2 := s.readReg rs2, imm := imm.signExtend 32 }

/-- Tag B (R89). -/
def State.operandsB (s : State) (rs1 rs2 : Reg) (off : BitVec 13) : Bundle :=
  { src1 := s.readReg rs1, src2 := s.readReg rs2, imm := off.signExtend 32 }

/-- Tag U: `inst[31:12] << 12`, no register read (R86). -/
def operandsU (imm20 : BitVec 20) : Bundle := { src1 := 0#32, src2 := 0#32, imm := imm20 ++ 0#12 }

/-- Tag J, no register read (R87). -/
def operandsJ (off : BitVec 21) : Bundle := { src1 := 0#32, src2 := 0#32, imm := off.signExtend 32 }

/-- Tag N (R91). -/
def operandsN : Bundle := { src1 := 0#32, src2 := 0#32, imm := 0#32 }

/-- The 12-bit immediate of slli and srli: inst[31:25] = 0000000 over the shift amount (R53). -/
def shiftImm (shamt : BitVec 5) : BitVec 12 := 0b0000000#7 ++ shamt

/-- The 12-bit immediate of srai: inst[31:25] = 0100000 over the shift amount (R53). -/
def shiftImmArith (shamt : BitVec 5) : BitVec 12 := 0b0100000#7 ++ shamt

/-! ## The immediates of an instruction word, as the extractor assembles them -/

/-- `sext_12(inst[31:20])` (R59). -/
def wordImmI (w : Word) : Word := signExtend (field w 31 20) 12

/-- `inst[31:12] << 12` (R60). -/
def wordImmU (w : Word) : Word := BitVec.ofNat 32 (field w 31 12 * 2 ^ 12)

/-- `sext_21({inst[31], inst[19:12], inst[20], inst[30:21], 0})` (R61). -/
def wordImmJ (w : Word) : Word :=
  signExtend (field w 31 31 * 2 ^ 20 + field w 19 12 * 2 ^ 12 + field w 20 20 * 2 ^ 11 + field w 30 21 * 2) 21

/-- `sext_12({inst[31:25], inst[11:7]})` (R62). -/
def wordImmS (w : Word) : Word := signExtend (field w 31 25 * 2 ^ 5 + field w 11 7) 12

/-- `sext_13({inst[31], inst[7], inst[30:25], inst[11:8], 0})` (R63, 90_conflicts.md C1). -/
def wordImmB (w : Word) : Word :=
  signExtend (field w 31 31 * 2 ^ 12 + field w 7 7 * 2 ^ 11 + field w 30 25 * 2 ^ 5 + field w 11 8 * 2) 13

/-! ## The multiplexer -/

/-- `decode_operand(inst, tag)`: the bundle selected by the format tag (R84 to R92). Register reads
happen here, before the action runs (R92). -/
def decodeOperand (w : Word) (tag : Format) (s : State) : Bundle :=
  match tag with
  | .i => { src1 := s.readReg (rs1Field w), src2 := wordImmI w, imm := wordImmI w }
  | .u => { src1 := 0#32, src2 := 0#32, imm := wordImmU w }
  | .j => { src1 := 0#32, src2 := 0#32, imm := wordImmJ w }
  | .s => { src1 := s.readReg (rs1Field w), src2 := s.readReg (rs2Field w), imm := wordImmS w }
  | .b => { src1 := s.readReg (rs1Field w), src2 := s.readReg (rs2Field w), imm := wordImmB w }
  | .r => { src1 := s.readReg (rs1Field w), src2 := s.readReg (rs2Field w), imm := 0#32 }
  | .n => { src1 := 0#32, src2 := 0#32, imm := 0#32 }

end Sys2Proof.Machine
end

