-- ==== Sys2Proof/Machine/Flags.lean ====
section
/-!
DEFINITION. The hardware has no flags and no condition codes (10_state.md R19); this file holds what
stands in their place: the relations that branches and set-less-than instructions test directly
(00_scope.md R8, 42_control_transfer.md R120, 44_alu_immediate.md R160).
-/

namespace Sys2Proof.Machine

/-- `a <s b` (R8). -/
def lessSigned (a b : Word) : Bool := decide (a.toInt < b.toInt)

/-- `a <u b` (R8). -/
def lessUnsigned (a b : Word) : Bool := decide (a.toNat < b.toNat)

/-- The word 1 or 0 (R162, R184). -/
def boolWord (b : Bool) : Word := if b then 1#32 else 0#32

end Sys2Proof.Machine
end

