-- ==== Sys2Proof/Machine/Alu.lean ====
section
/-!
DEFINITION. The arithmetic shared by the ALU families: shift amounts and shifts (44_alu_immediate.md
R160, 45_alu_register.md R180), exact products (46_muldiv.md R200) and the division corners (R201).
-/

namespace Sys2Proof.Machine

/-- The low 5 bits of the shift operand (R160, R180). -/
def shiftAmount (v : Word) : Nat := field v 4 0

/-- `a << n` (R8). -/
def shiftLeft (a : Word) (n : Nat) : Word := a <<< n

/-- `a >>u n` (R8). -/
def shiftRightLogical (a : Word) (n : Nat) : Word := a >>> n

/-- `a >>s n` (R8). -/
def shiftRightArith (a : Word) (n : Nat) : Word := a.sshiftRight n

/-- Bits 63:32 of an exact product (R200, R203 to R205). -/
def highHalf (product : Int) : Word := BitVec.ofInt 32 (product / 2 ^ 32)

/-- The two operands of the signed-overflow corner: -2^31 and -1 (R201). -/
def signedOverflow (a b : Word) : Bool := decide (a = 0x80000000#32 ∧ b = 0xffffffff#32)

/-- The default `DivPolicy`, the table of R201. Its `divu` and `remu` entries of the second row are
no corner, and the table gives the ordinary results. -/
def defaultDivision (op : DivOp) (a b : Word) : Word :=
  if b = 0#32 then
    match op with
    | .div => 0xffffffff#32
    | .divu => 0xffffffff#32
    | .rem => a
    | .remu => a
  else
    match op with
    | .div => 0x80000000#32
    | .divu => 0#32
    | .rem => 0#32
    | .remu => 0x80000000#32

/-- `DivPolicy(op, src1, src2)`, used only in the two corner conditions (R201). -/
def DivPolicy.result (p : DivPolicy) (op : DivOp) (a b : Word) : Word :=
  match p with
  | .specDefault => defaultDivision op a b
  | .uninterpreted => Config.divCorner op a b

/-- Signed quotient, toward zero (R206). -/
def quotientSigned (p : DivPolicy) (a b : Word) : Word :=
  if b = 0#32 then DivPolicy.result p .div a b
  else if signedOverflow a b then DivPolicy.result p .div a b
  else BitVec.ofInt 32 (Int.tdiv a.toInt b.toInt)

/-- Unsigned quotient (R207). -/
def quotientUnsigned (p : DivPolicy) (a b : Word) : Word :=
  if b = 0#32 then DivPolicy.result p .divu a b else BitVec.ofNat 32 (a.toNat / b.toNat)

/-- Signed remainder, that of the quotient toward zero (R208). -/
def remainderSigned (p : DivPolicy) (a b : Word) : Word :=
  if b = 0#32 then DivPolicy.result p .rem a b
  else if signedOverflow a b then DivPolicy.result p .rem a b
  else BitVec.ofInt 32 (a.toInt - b.toInt * Int.tdiv a.toInt b.toInt)

/-- Unsigned remainder (R209). -/
def remainderUnsigned (p : DivPolicy) (a b : Word) : Word :=
  if b = 0#32 then DivPolicy.result p .remu a b else BitVec.ofNat 32 (a.toNat % b.toNat)

end Sys2Proof.Machine
end

