-- ==== Sys2Proof/Machine/AluImmediate.lean ====
section
/-!
DEFINITION. ALU operations with an immediate (44_alu_immediate.md R160 to R169).
-/

namespace Sys2Proof.Machine

/-- `addi`: `x[rd] <- src1 + imm` (R161). -/
def actAddi (o : Bundle) (rd : Reg) (s : State) : StepOutcome := .next (s.writeReg rd (o.src1 + o.imm))

/-- The meaning of `addi rd, rs1, imm` (R161). -/
def execAddi (rd rs1 : Reg) (imm : BitVec 12) (s : State) : StepOutcome := actAddi (s.operandsI rs1 imm) rd s

/-- `slti`: `x[rd] <- (src1 <s imm) ? 1 : 0` (R162). -/
def actSlti (o : Bundle) (rd : Reg) (s : State) : StepOutcome :=
  .next (s.writeReg rd (boolWord (lessSigned o.src1 o.imm)))

/-- The meaning of `slti rd, rs1, imm` (R162). -/
def execSlti (rd rs1 : Reg) (imm : BitVec 12) (s : State) : StepOutcome := actSlti (s.operandsI rs1 imm) rd s

/-- `sltiu`: `x[rd] <- (src1 <u imm) ? 1 : 0` (R163). -/
def actSltiu (o : Bundle) (rd : Reg) (s : State) : StepOutcome :=
  .next (s.writeReg rd (boolWord (lessUnsigned o.src1 o.imm)))

/-- The meaning of `sltiu rd, rs1, imm` (R163). -/
def execSltiu (rd rs1 : Reg) (imm : BitVec 12) (s : State) : StepOutcome := actSltiu (s.operandsI rs1 imm) rd s

/-- `xori`: `x[rd] <- src1 ^ imm` (R164). -/
def actXori (o : Bundle) (rd : Reg) (s : State) : StepOutcome := .next (s.writeReg rd (o.src1 ^^^ o.imm))

/-- The meaning of `xori rd, rs1, imm` (R164). -/
def execXori (rd rs1 : Reg) (imm : BitVec 12) (s : State) : StepOutcome := actXori (s.operandsI rs1 imm) rd s

/-- `ori`: `x[rd] <- src1 | imm` (R165). -/
def actOri (o : Bundle) (rd : Reg) (s : State) : StepOutcome := .next (s.writeReg rd (o.src1 ||| o.imm))

/-- The meaning of `ori rd, rs1, imm` (R165). -/
def execOri (rd rs1 : Reg) (imm : BitVec 12) (s : State) : StepOutcome := actOri (s.operandsI rs1 imm) rd s

/-- `andi`: `x[rd] <- src1 & imm` (R166). -/
def actAndi (o : Bundle) (rd : Reg) (s : State) : StepOutcome := .next (s.writeReg rd (o.src1 &&& o.imm))

/-- The meaning of `andi rd, rs1, imm` (R166). -/
def execAndi (rd rs1 : Reg) (imm : BitVec 12) (s : State) : StepOutcome := actAndi (s.operandsI rs1 imm) rd s

/-- `slli`: `x[rd] <- src1 << (imm & 31)` (R167). -/
def actSlli (o : Bundle) (rd : Reg) (s : State) : StepOutcome :=
  .next (s.writeReg rd (shiftLeft o.src1 (shiftAmount o.imm)))

/-- The meaning of `slli rd, rs1, shamt` (R167). -/
def execSlli (rd rs1 : Reg) (shamt : BitVec 5) (s : State) : StepOutcome :=
  actSlli (s.operandsI rs1 (shiftImm shamt)) rd s

/-- `srli`: `x[rd] <- src1 >>u (imm & 31)` (R168). -/
def actSrli (o : Bundle) (rd : Reg) (s : State) : StepOutcome :=
  .next (s.writeReg rd (shiftRightLogical o.src1 (shiftAmount o.imm)))

/-- The meaning of `srli rd, rs1, shamt` (R168). -/
def execSrli (rd rs1 : Reg) (shamt : BitVec 5) (s : State) : StepOutcome :=
  actSrli (s.operandsI rs1 (shiftImm shamt)) rd s

/-- `srai`: `x[rd] <- src1 >>s (imm & 31)` (R169). -/
def actSrai (o : Bundle) (rd : Reg) (s : State) : StepOutcome :=
  .next (s.writeReg rd (shiftRightArith o.src1 (shiftAmount o.imm)))

/-- The meaning of `srai rd, rs1, shamt` (R169). -/
def execSrai (rd rs1 : Reg) (shamt : BitVec 5) (s : State) : StepOutcome :=
  actSrai (s.operandsI rs1 (shiftImmArith shamt)) rd s

end Sys2Proof.Machine
end

