-- ==== Sys2Proof/Machine/AluRegister.lean ====
section
/-!
DEFINITION. ALU operations over two registers (45_alu_register.md R180 to R190).
-/

namespace Sys2Proof.Machine

/-- `add`: `x[rd] <- src1 + src2` (R181). -/
def actAdd (o : Bundle) (rd : Reg) (s : State) : StepOutcome :=
  .next (s.writeReg rd (o.src1 + o.src2))

/-- The meaning of `add rd, rs1, rs2` (R181). -/
def execAdd (rd rs1 rs2 : Reg) (s : State) : StepOutcome := actAdd (s.operandsR rs1 rs2) rd s

/-- `sub`: `x[rd] <- src1 - src2` (R182). -/
def actSub (o : Bundle) (rd : Reg) (s : State) : StepOutcome :=
  .next (s.writeReg rd (o.src1 - o.src2))

/-- The meaning of `sub rd, rs1, rs2` (R182). -/
def execSub (rd rs1 rs2 : Reg) (s : State) : StepOutcome := actSub (s.operandsR rs1 rs2) rd s

/-- `sll`: `x[rd] <- src1 << src2[4:0]` (R183). -/
def actSll (o : Bundle) (rd : Reg) (s : State) : StepOutcome :=
  .next (s.writeReg rd (shiftLeft o.src1 (shiftAmount o.src2)))

/-- The meaning of `sll rd, rs1, rs2` (R183). -/
def execSll (rd rs1 rs2 : Reg) (s : State) : StepOutcome := actSll (s.operandsR rs1 rs2) rd s

/-- `slt`: `x[rd] <- (src1 <s src2) ? 1 : 0` (R184). -/
def actSlt (o : Bundle) (rd : Reg) (s : State) : StepOutcome :=
  .next (s.writeReg rd (boolWord (lessSigned o.src1 o.src2)))

/-- The meaning of `slt rd, rs1, rs2` (R184). -/
def execSlt (rd rs1 rs2 : Reg) (s : State) : StepOutcome := actSlt (s.operandsR rs1 rs2) rd s

/-- `sltu`: `x[rd] <- (src1 <u src2) ? 1 : 0` (R185). -/
def actSltu (o : Bundle) (rd : Reg) (s : State) : StepOutcome :=
  .next (s.writeReg rd (boolWord (lessUnsigned o.src1 o.src2)))

/-- The meaning of `sltu rd, rs1, rs2` (R185). -/
def execSltu (rd rs1 rs2 : Reg) (s : State) : StepOutcome := actSltu (s.operandsR rs1 rs2) rd s

/-- `xor`: `x[rd] <- src1 ^ src2` (R186). -/
def actXor (o : Bundle) (rd : Reg) (s : State) : StepOutcome :=
  .next (s.writeReg rd (o.src1 ^^^ o.src2))

/-- The meaning of `xor rd, rs1, rs2` (R186). -/
def execXor (rd rs1 rs2 : Reg) (s : State) : StepOutcome := actXor (s.operandsR rs1 rs2) rd s

/-- `srl`: `x[rd] <- src1 >>u src2[4:0]` (R187). -/
def actSrl (o : Bundle) (rd : Reg) (s : State) : StepOutcome :=
  .next (s.writeReg rd (shiftRightLogical o.src1 (shiftAmount o.src2)))

/-- The meaning of `srl rd, rs1, rs2` (R187). -/
def execSrl (rd rs1 rs2 : Reg) (s : State) : StepOutcome := actSrl (s.operandsR rs1 rs2) rd s

/-- `sra`: `x[rd] <- src1 >>s src2[4:0]` (R188). -/
def actSra (o : Bundle) (rd : Reg) (s : State) : StepOutcome :=
  .next (s.writeReg rd (shiftRightArith o.src1 (shiftAmount o.src2)))

/-- The meaning of `sra rd, rs1, rs2` (R188). -/
def execSra (rd rs1 rs2 : Reg) (s : State) : StepOutcome := actSra (s.operandsR rs1 rs2) rd s

/-- `or`: `x[rd] <- src1 | src2` (R189). -/
def actOr (o : Bundle) (rd : Reg) (s : State) : StepOutcome :=
  .next (s.writeReg rd (o.src1 ||| o.src2))

/-- The meaning of `or rd, rs1, rs2` (R189). -/
def execOr (rd rs1 rs2 : Reg) (s : State) : StepOutcome := actOr (s.operandsR rs1 rs2) rd s

/-- `and`: `x[rd] <- src1 & src2` (R190). -/
def actAnd (o : Bundle) (rd : Reg) (s : State) : StepOutcome :=
  .next (s.writeReg rd (o.src1 &&& o.src2))

/-- The meaning of `and rd, rs1, rs2` (R190). -/
def execAnd (rd rs1 rs2 : Reg) (s : State) : StepOutcome := actAnd (s.operandsR rs1 rs2) rd s

end Sys2Proof.Machine
end

