-- ==== Sys2Proof/Machine/ControlTransfer.lean ====
section
/-!
DEFINITION. Control transfer: the six conditional branches, jal and jalr (42_control_transfer.md R120
to R129). No target is checked for alignment (R129).
-/

namespace Sys2Proof.Machine

/-- A conditional branch: `dnpc <- pc + imm` only when the relation holds (R120). -/
def State.branchIf (s : State) (taken : Bool) (o : Bundle) : State :=
  if taken then s.setDnpc (s.pc + o.imm) else s

/-- `beq`: `if src1 = src2 then dnpc <- pc + imm` (R121). -/
def actBeq (o : Bundle) (s : State) : StepOutcome := .next (s.branchIf (o.src1 == o.src2) o)

/-- The meaning of `beq rs1, rs2, offset` (R121). -/
def execBeq (rs1 rs2 : Reg) (off : BitVec 13) (s : State) : StepOutcome := actBeq (s.operandsB rs1 rs2 off) s

/-- `bne`: `if src1 != src2 then dnpc <- pc + imm` (R122). -/
def actBne (o : Bundle) (s : State) : StepOutcome := .next (s.branchIf (o.src1 != o.src2) o)

/-- The meaning of `bne rs1, rs2, offset` (R122). -/
def execBne (rs1 rs2 : Reg) (off : BitVec 13) (s : State) : StepOutcome := actBne (s.operandsB rs1 rs2 off) s

/-- `blt`: `if src1 <s src2 then dnpc <- pc + imm` (R123). -/
def actBlt (o : Bundle) (s : State) : StepOutcome := .next (s.branchIf (lessSigned o.src1 o.src2) o)

/-- The meaning of `blt rs1, rs2, offset` (R123). -/
def execBlt (rs1 rs2 : Reg) (off : BitVec 13) (s : State) : StepOutcome := actBlt (s.operandsB rs1 rs2 off) s

/-- `bge`: `if src1 >=s src2 then dnpc <- pc + imm` (R124). -/
def actBge (o : Bundle) (s : State) : StepOutcome := .next (s.branchIf (!lessSigned o.src1 o.src2) o)

/-- The meaning of `bge rs1, rs2, offset` (R124). -/
def execBge (rs1 rs2 : Reg) (off : BitVec 13) (s : State) : StepOutcome := actBge (s.operandsB rs1 rs2 off) s

/-- `bltu`: `if src1 <u src2 then dnpc <- pc + imm` (R125). -/
def actBltu (o : Bundle) (s : State) : StepOutcome := .next (s.branchIf (lessUnsigned o.src1 o.src2) o)

/-- The meaning of `bltu rs1, rs2, offset` (R125). -/
def execBltu (rs1 rs2 : Reg) (off : BitVec 13) (s : State) : StepOutcome := actBltu (s.operandsB rs1 rs2 off) s

/-- `bgeu`: `if src1 >=u src2 then dnpc <- pc + imm` (R126). -/
def actBgeu (o : Bundle) (s : State) : StepOutcome := .next (s.branchIf (!lessUnsigned o.src1 o.src2) o)

/-- The meaning of `bgeu rs1, rs2, offset` (R126). -/
def execBgeu (rs1 rs2 : Reg) (off : BitVec 13) (s : State) : StepOutcome := actBgeu (s.operandsB rs1 rs2 off) s

/-- `jal`: `x[rd] <- snpc; dnpc <- pc + imm` (R127). -/
def actJal (o : Bundle) (rd : Reg) (s : State) : StepOutcome :=
  .next ((s.writeReg rd s.snpc).setDnpc (s.pc + o.imm))

/-- The meaning of `jal rd, offset` (R127). -/
def execJal (rd : Reg) (off : BitVec 21) (s : State) : StepOutcome := actJal (operandsJ off) rd s

/-- `jalr`: `x[rd] <- snpc; dnpc <- src1 + imm`. Bit 0 of the sum is not cleared (R128, R129). -/
def actJalr (o : Bundle) (rd : Reg) (s : State) : StepOutcome :=
  .next ((s.writeReg rd s.snpc).setDnpc (o.src1 + o.imm))

/-- The meaning of `jalr rd, rs1, imm` (R128). -/
def execJalr (rd rs1 : Reg) (imm : BitVec 12) (s : State) : StepOutcome := actJalr (s.operandsI rs1 imm) rd s

end Sys2Proof.Machine
end

