-- ==== Sys2Proof/Machine/LoadStore.lean ====
section
/-!
DEFINITION. Loads and stores (43_loads_stores.md R140 to R149, 20_memory.md R32 to R38). No alignment
check is made; whether an access is served is the collaborator's verdict.
-/

namespace Sys2Proof.Machine

/-- The effective address `src1 + imm` modulo 2^32 (R35, R140). -/
def effectiveAddr (o : Bundle) : Word := o.src1 + o.imm

/-- `lb`: `x[rd] <- sext_8(MemRead(src1 + imm, 1))` (R141). -/
def actLb (o : Bundle) (rd : Reg) (s : State) : StepOutcome :=
  .next (s.load rd (effectiveAddr o) .one (fun v => signExtend v 8))

/-- The meaning of `lb rd, imm(rs1)` (R141). -/
def execLb (rd rs1 : Reg) (imm : BitVec 12) (s : State) : StepOutcome := actLb (s.operandsI rs1 imm) rd s

/-- `lh`: `x[rd] <- sext_16(MemRead(src1 + imm, 2))` (R142). -/
def actLh (o : Bundle) (rd : Reg) (s : State) : StepOutcome :=
  .next (s.load rd (effectiveAddr o) .two (fun v => signExtend v 16))

/-- The meaning of `lh rd, imm(rs1)` (R142). -/
def execLh (rd rs1 : Reg) (imm : BitVec 12) (s : State) : StepOutcome := actLh (s.operandsI rs1 imm) rd s

/-- `lw`: `x[rd] <- MemRead(src1 + imm, 4)` (R143). -/
def actLw (o : Bundle) (rd : Reg) (s : State) : StepOutcome :=
  .next (s.load rd (effectiveAddr o) .four (fun v => BitVec.ofNat 32 v))

/-- The meaning of `lw rd, imm(rs1)` (R143). -/
def execLw (rd rs1 : Reg) (imm : BitVec 12) (s : State) : StepOutcome := actLw (s.operandsI rs1 imm) rd s

/-- `lbu`: `x[rd] <- zext_8(MemRead(src1 + imm, 1))` (R144). -/
def actLbu (o : Bundle) (rd : Reg) (s : State) : StepOutcome :=
  .next (s.load rd (effectiveAddr o) .one (fun v => BitVec.ofNat 32 v))

/-- The meaning of `lbu rd, imm(rs1)` (R144). -/
def execLbu (rd rs1 : Reg) (imm : BitVec 12) (s : State) : StepOutcome := actLbu (s.operandsI rs1 imm) rd s

/-- `lhu`: `x[rd] <- zext_16(MemRead(src1 + imm, 2))` (R145). -/
def actLhu (o : Bundle) (rd : Reg) (s : State) : StepOutcome :=
  .next (s.load rd (effectiveAddr o) .two (fun v => BitVec.ofNat 32 v))

/-- The meaning of `lhu rd, imm(rs1)` (R145). -/
def execLhu (rd rs1 : Reg) (imm : BitVec 12) (s : State) : StepOutcome := actLhu (s.operandsI rs1 imm) rd s

/-- `sb`: `MemWrite(src1 + imm, 1, src2[7:0])` (R146). -/
def actSb (o : Bundle) (s : State) : StepOutcome :=
  .next (s.store (effectiveAddr o) .one (field o.src2 7 0))

/-- The meaning of `sb rs2, imm(rs1)` (R146). -/
def execSb (rs1 rs2 : Reg) (imm : BitVec 12) (s : State) : StepOutcome := actSb (s.operandsS rs1 rs2 imm) s

/-- `sh`: `MemWrite(src1 + imm, 2, src2[15:0])` (R147). -/
def actSh (o : Bundle) (s : State) : StepOutcome :=
  .next (s.store (effectiveAddr o) .two (field o.src2 15 0))

/-- The meaning of `sh rs2, imm(rs1)` (R147). -/
def execSh (rs1 rs2 : Reg) (imm : BitVec 12) (s : State) : StepOutcome := actSh (s.operandsS rs1 rs2 imm) s

/-- `sw`: `MemWrite(src1 + imm, 4, src2[31:0])` (R148). -/
def actSw (o : Bundle) (s : State) : StepOutcome :=
  .next (s.store (effectiveAddr o) .four (field o.src2 31 0))

/-- The meaning of `sw rs2, imm(rs1)` (R148). -/
def execSw (rs1 rs2 : Reg) (imm : BitVec 12) (s : State) : StepOutcome := actSw (s.operandsS rs1 rs2 imm) s

end Sys2Proof.Machine
end

