-- ==== Sys2Proof/Machine/MulDiv.lean ====
section
/-!
DEFINITION. Multiply and divide (46_muldiv.md R200 to R209). No corner case faults (R201).
-/

namespace Sys2Proof.Machine

/-- `mul`: `x[rd] <- (u(src1) * u(src2)) mod 2^32` (R202). -/
def actMul (o : Bundle) (rd : Reg) (s : State) : StepOutcome :=
  .next (s.writeReg rd (BitVec.ofNat 32 (o.src1.toNat * o.src2.toNat)))

/-- The meaning of `mul rd, rs1, rs2` (R202). -/
def execMul (rd rs1 rs2 : Reg) (s : State) : StepOutcome := actMul (s.operandsR rs1 rs2) rd s

/-- `mulh`: `x[rd] <- floor((s(src1) * s(src2)) / 2^32) mod 2^32` (R203). -/
def actMulh (o : Bundle) (rd : Reg) (s : State) : StepOutcome :=
  .next (s.writeReg rd (highHalf (o.src1.toInt * o.src2.toInt)))

/-- The meaning of `mulh rd, rs1, rs2` (R203). -/
def execMulh (rd rs1 rs2 : Reg) (s : State) : StepOutcome := actMulh (s.operandsR rs1 rs2) rd s

/-- `mulhsu`: `x[rd] <- floor((s(src1) * u(src2)) / 2^32) mod 2^32` (R204). -/
def actMulhsu (o : Bundle) (rd : Reg) (s : State) : StepOutcome :=
  .next (s.writeReg rd (highHalf (o.src1.toInt * o.src2.toNat)))

/-- The meaning of `mulhsu rd, rs1, rs2` (R204). -/
def execMulhsu (rd rs1 rs2 : Reg) (s : State) : StepOutcome := actMulhsu (s.operandsR rs1 rs2) rd s

/-- `mulhu`: `x[rd] <- floor((u(src1) * u(src2)) / 2^32)` (R205). -/
def actMulhu (o : Bundle) (rd : Reg) (s : State) : StepOutcome :=
  .next (s.writeReg rd (highHalf (o.src1.toNat * o.src2.toNat)))

/-- The meaning of `mulhu rd, rs1, rs2` (R205). -/
def execMulhu (rd rs1 rs2 : Reg) (s : State) : StepOutcome := actMulhu (s.operandsR rs1 rs2) rd s

/-- `div`: `x[rd] <- trunc(s(src1) / s(src2)), corners by DivPolicy` (R206). -/
def actDiv (o : Bundle) (rd : Reg) (s : State) : StepOutcome :=
  .next (s.writeReg rd (quotientSigned s.params.divPolicy o.src1 o.src2))

/-- The meaning of `div rd, rs1, rs2` (R206). -/
def execDiv (rd rs1 rs2 : Reg) (s : State) : StepOutcome := actDiv (s.operandsR rs1 rs2) rd s

/-- `divu`: `x[rd] <- floor(u(src1) / u(src2)), corner by DivPolicy` (R207). -/
def actDivu (o : Bundle) (rd : Reg) (s : State) : StepOutcome :=
  .next (s.writeReg rd (quotientUnsigned s.params.divPolicy o.src1 o.src2))

/-- The meaning of `divu rd, rs1, rs2` (R207). -/
def execDivu (rd rs1 rs2 : Reg) (s : State) : StepOutcome := actDivu (s.operandsR rs1 rs2) rd s

/-- `rem`: `x[rd] <- s(src1) - s(src2) * trunc(s(src1) / s(src2)), corners by DivPolicy` (R208). -/
def actRem (o : Bundle) (rd : Reg) (s : State) : StepOutcome :=
  .next (s.writeReg rd (remainderSigned s.params.divPolicy o.src1 o.src2))

/-- The meaning of `rem rd, rs1, rs2` (R208). -/
def execRem (rd rs1 rs2 : Reg) (s : State) : StepOutcome := actRem (s.operandsR rs1 rs2) rd s

/-- `remu`: `x[rd] <- u(src1) mod u(src2), corner by DivPolicy` (R209). -/
def actRemu (o : Bundle) (rd : Reg) (s : State) : StepOutcome :=
  .next (s.writeReg rd (remainderUnsigned s.params.divPolicy o.src1 o.src2))

/-- The meaning of `remu rd, rs1, rs2` (R209). -/
def execRemu (rd rs1 rs2 : Reg) (s : State) : StepOutcome := actRemu (s.operandsR rs1 rs2) rd s

end Sys2Proof.Machine
end

