-- ==== Sys2Proof/Machine/Terminal.lean ====
section
/-!
DEFINITION. The terminal actions (48_terminal.md R230 to R232). Each signals the monitor, which ends
the run; no register, memory byte or program counter changes.
-/

namespace Sys2Proof.Machine

/-- `nemu_trap`: `signal_end(pc, x[RETREG])`, read straight from the register file (R231). -/
def actNemuTrap (s : State) : StepOutcome := .next (s.raise (.ended s.pc (s.readReg Config.retReg)))

/-- The meaning of `nemu_trap` (R231). -/
def execNemuTrap (s : State) : StepOutcome := actNemuTrap s

/-- `inv`: `signal_invalid(pc)` (R232). -/
def actInv (s : State) : StepOutcome := .next (s.raise (.invalid s.pc))

/-- The meaning of `inv`: the word is not passed to the monitor, only `pc` (R232). -/
def execInv (_word : Word) (s : State) : StepOutcome := actInv s

end Sys2Proof.Machine
end

