-- ==== Sys2Proof/Machine/UpperImmediate.lean ====
section
/-!
DEFINITION. The upper-immediate instructions (47_upper_immediate.md R220 to R222).
-/

namespace Sys2Proof.Machine

/-- `lui`: `x[rd] <- imm` (R221). -/
def actLui (o : Bundle) (rd : Reg) (s : State) : StepOutcome := .next (s.writeReg rd o.imm)

/-- The meaning of `lui rd, imm20` (R221). -/
def execLui (rd : Reg) (imm20 : BitVec 20) (s : State) : StepOutcome := actLui (operandsU imm20) rd s

/-- `auipc`: `x[rd] <- pc + imm` (R222). -/
def actAuipc (o : Bundle) (rd : Reg) (s : State) : StepOutcome := .next (s.writeReg rd (s.pc + o.imm))

/-- The meaning of `auipc rd, imm20` (R222). -/
def execAuipc (rd : Reg) (imm20 : BitVec 20) (s : State) : StepOutcome := actAuipc (operandsU imm20) rd s

end Sys2Proof.Machine
end

