-- ==== Sys2Proof/Machine/Driver.lean ====
section
/-!
DEFINITION. The fetch-decode driver (41_matcher_and_driver.md R108 to R115): one decode step over
decoded instructions, which `step` calls, and the same step as the spec composes it, over the pattern
table, the operand multiplexer and the table's actions.
-/

namespace Sys2Proof.Machine

/-- Steps 2 to 6 for a fetched word (R109 to R113). -/
def executeWord (w : Word) (s : State) : StepOutcome :=
  mapNext State.finishStep (exec (decodeWord w) s.defaultDnpc)

/-- One decode step (R114). Its precondition is `snpc = pc` and a running machine. A fetch fault ends
it before anything else happens (R108, R246). -/
def decodeStep (s : State) : StepOutcome :=
  match s.fetch with
  | .ok (w, t) => executeWord w t
  | .error c => .next (s.raise c)

/-- One `exec_once` of a running machine (R115). -/
def execOnce (s : State) : StepOutcome := mapNext State.commit (decodeStep s.setCursor)

/-! ## The same step, as the spec composes it from its sub-blocks -/

/-- The action of a table entry over the operand bundle and `rd` (R105, R111). -/
def runAction (m : Mnemonic) (o : Bundle) (rd : Reg) (s : State) : StepOutcome :=
  match m with
  | .beq => actBeq o s
  | .bne => actBne o s
  | .blt => actBlt o s
  | .bge => actBge o s
  | .bltu => actBltu o s
  | .bgeu => actBgeu o s
  | .sb => actSb o s
  | .sh => actSh o s
  | .sw => actSw o s
  | .jal => actJal o rd s
  | .jalr => actJalr o rd s
  | .lb => actLb o rd s
  | .lh => actLh o rd s
  | .lw => actLw o rd s
  | .lbu => actLbu o rd s
  | .lhu => actLhu o rd s
  | .addi => actAddi o rd s
  | .slti => actSlti o rd s
  | .sltiu => actSltiu o rd s
  | .xori => actXori o rd s
  | .ori => actOri o rd s
  | .andi => actAndi o rd s
  | .slli => actSlli o rd s
  | .srli => actSrli o rd s
  | .srai => actSrai o rd s
  | .add => actAdd o rd s
  | .sub => actSub o rd s
  | .sll => actSll o rd s
  | .slt => actSlt o rd s
  | .sltu => actSltu o rd s
  | .xor => actXor o rd s
  | .srl => actSrl o rd s
  | .sra => actSra o rd s
  | .or => actOr o rd s
  | .and => actAnd o rd s
  | .mul => actMul o rd s
  | .mulh => actMulh o rd s
  | .mulhsu => actMulhsu o rd s
  | .mulhu => actMulhu o rd s
  | .div => actDiv o rd s
  | .divu => actDivu o rd s
  | .rem => actRem o rd s
  | .remu => actRemu o rd s
  | .lui => actLui o rd s
  | .auipc => actAuipc o rd s
  | .nemuTrap => actNemuTrap s
  | .inv => actInv s

/-- Steps 2 to 6 by the table: select the entry, cut `rd`, decode the operands for the entry's tag,
run its action (R109 to R113). -/
def executeByTable (w : Word) (s : State) : StepOutcome :=
  let t := s.defaultDnpc
  let rd := rdField w
  let e := select w
  let o := decodeOperand w e.tag t
  mapNext State.finishStep (runAction e.action o rd t)

/-- `exec_once` by the table (R114, R115). -/
def execOnceByTable (s : State) : StepOutcome :=
  mapNext State.commit
    (match s.setCursor.fetch with
      | .ok (w, t) => executeByTable w t
      | .error c => .next (s.setCursor.raise c))

end Sys2Proof.Machine
end

