-- ==== Sys2Proof/Machine/Step.lean ====
section
/-!
DEFINITION. One step: `exec_once` while the run goes on (41_matcher_and_driver.md R115), and the
loading of one instruction where the next step fetches.
-/

namespace Sys2Proof.Machine

/-- One transition of the machine (R115, R116). Once a terminal condition has ended the run no further
step is taken (10_state.md R22, 60_exceptions.md R249). -/
def step (s : State) : Host.Outcome State Fault Refusal :=
  match s.status with
  | .running => execOnce s
  | .terminated c => .fault (.runOver c)

/-- The state with an instruction's four bytes stored at `pc`, where the next step fetches: the host's
loading of a program (70_reset_and_hazards.md R272, log entry 11). -/
def State.withFetchWord (s : State) (nbits w : Nat) : State :=
  { s with mem := s.mem.writeBytes s.pc (toBytesLE 4 (w % 2 ^ nbits)) }

end Sys2Proof.Machine
end

