-- ==== Sys2Proof/Machine/Ports.lean ====
section
/-!
DEFINITION. The named interface values of the block, each exchanged once per decode step
(10_state.md R23), as functions of the state: what the block sends to the register file, to the memory
collaborator and to the monitor, and what they answer.
-/

namespace Sys2Proof.Machine

/-- The one data-memory request of a step (R23, R39). -/
inductive MemReq where
  | none
  | read (addr : Word) (len : AccessLen) (mode : MemMode)
  | write (addr : Word) (len : AccessLen) (wdata : Nat) (mode : MemMode)
  deriving DecidableEq, Repr, Inhabited

/-- The interface values of a step, in the order of R23's table. A value that the step does not exchange
is `none`: what comes from the word when the fetch faults, the write data of a step that writes no
register, the read data of a step that reads no memory, the return value of a step that does not return. -/
structure Ports where
  pc            : Word
  snpcIn        : Word
  snpcOut       : Option Word
  inst          : Option Word
  rfRaddr1      : Option Reg
  rfRdata1      : Option Word
  rfRaddr2      : Option Reg
  rfRdata2      : Option Word
  rfRaddr3      : Reg
  rfRdata3      : Word
  rfWe          : Bool
  rfWaddr       : Option Reg
  rfWdata       : Option Word
  rfZero        : Bool
  dnpc          : Option Word
  memReq        : MemReq
  memRdata      : Option Nat
  memFault      : Bool
  fetchFault    : Bool
  signalEnd     : Option (Word × Word)
  signalInvalid : Option Word
  status        : Option Nat
  deriving DecidableEq, Repr

/-- What a request asks of the collaborator: kind, address and length, the triple a fault records (R243). -/
def MemReq.access (q : MemReq) : Option (AccessKind × Word × AccessLen) :=
  match q with
  | .none => .none
  | .read addr len _ => some (.read, addr, len)
  | .write addr len _ _ => some (.write, addr, len)

/-- Formats R, I, U and J write x[rd]; S, B and N write no register (R12). -/
def formatWrites (f : Format) : Bool :=
  match f with
  | .r | .i | .u | .j => true
  | .s | .b | .n => false

/-- The request an action makes: loads read, stores write, every other action none (R30, R36). -/
def memRequest (m : Mnemonic) (o : Bundle) : MemReq :=
  match m with
  | .lb | .lbu => .read (effectiveAddr o) .one Config.memMode
  | .lh | .lhu => .read (effectiveAddr o) .two Config.memMode
  | .lw => .read (effectiveAddr o) .four Config.memMode
  | .sb => .write (effectiveAddr o) .one (field o.src2 7 0) Config.memMode
  | .sh => .write (effectiveAddr o) .two (field o.src2 15 0) Config.memMode
  | .sw => .write (effectiveAddr o) .four (field o.src2 31 0) Config.memMode
  | .beq | .bne | .blt | .bge | .bltu | .bgeu | .jal | .jalr => .none
  | .addi | .slti | .sltiu | .xori | .ori | .andi | .slli | .srli | .srai => .none
  | .add | .sub | .sll | .slt | .sltu | .xor | .srl | .sra | .or | .and => .none
  | .mul | .mulh | .mulhsu | .mulhu | .div | .divu | .rem | .remu => .none
  | .lui | .auipc | .nemuTrap | .inv => .none

/-- The collaborator refuses the request (R38). -/
def State.refusesReq (s : State) (q : MemReq) : Bool :=
  match q with
  | .none => false
  | .read addr len _ => !s.admits .read addr len
  | .write addr len _ _ => !s.admits .write addr len

/-- The value the collaborator answers to a read it serves (R32). -/
def State.answerReq (s : State) (q : MemReq) : Option Nat :=
  match q with
  | .read addr len mode => (s.read .read addr len mode).toOption
  | .none | .write _ _ _ _ => none

/-- The exit signal of a run status (R242). -/
def endSignal (r : RunStatus) : Option (Word × Word) :=
  match r with
  | .terminated (.ended pc code) => some (pc, code)
  | .running | .terminated (.invalid _) | .terminated (.memFault _ _ _) => none

/-- The invalid-instruction signal of a run status (R241). -/
def invalidSignal (r : RunStatus) : Option Word :=
  match r with
  | .terminated (.invalid pc) => some pc
  | .running | .terminated (.ended _ _) | .terminated (.memFault _ _ _) => none

/-- What an action leaves of the state it runs on; actions neither fault nor refuse. -/
def afterAction (m : Mnemonic) (o : Bundle) (rd : Reg) (s : State) : State :=
  match runAction m o rd s with
  | .next t => t
  | .fault _ => s
  | .refused _ => s

/-- The interface values for a fetched word, from the state the action sees. The data on the write port
are what the action sends there whatever index it names, so they are read off a run with index 1.
When the load or store is refused the step ends before steps 5 and 6. DESIGN CHOICE (log entry 12): `rfZero`
is then 0 and `status` has no value, since `decode_step` does not return; the spec says what `status` is
only where it returns (R113, R244). -/
def State.portsFor (t : State) (w : Word) : Ports :=
  let e := select w
  let o := decodeOperand w e.tag t
  let q := memRequest e.action o
  let u := afterAction e.action o 1 t
  let refused := t.refusesReq q
  let writes := formatWrites e.tag && !refused
  { pc := t.pc
    snpcIn := t.pc
    snpcOut := some t.snpc
    inst := some w
    rfRaddr1 := some (rs1Field w)
    rfRdata1 := some (t.readReg (rs1Field w))
    rfRaddr2 := some (rs2Field w)
    rfRdata2 := some (t.readReg (rs2Field w))
    rfRaddr3 := Config.retReg
    rfRdata3 := t.readReg Config.retReg
    rfWe := writes
    rfWaddr := some (rdField w)
    rfWdata := if writes then some (u.readReg 1) else none
    rfZero := !refused
    dnpc := some u.dnpc
    memReq := q
    memRdata := t.answerReq q
    memFault := refused
    fetchFault := false
    signalEnd := endSignal u.status
    signalInvalid := invalidSignal u.status
    status := if refused then none else some 0 }

/-- The interface values of a step whose fetch faults: `fetch_fault` is 1, no word exists, steps 2 to 6 do
not run, so nothing is written, forced to zero or requested, and nothing is returned (R108, R246). What
comes from the word has no value; the cursor's value after the refused fetch is given none either, and
read port 3, whose address is fixed, is given its data as in any step (DESIGN CHOICE, log entry 12). -/
def State.portsOfFetchFault (s : State) : Ports :=
  { pc := s.pc
    snpcIn := s.pc
    snpcOut := none
    inst := none
    rfRaddr1 := none
    rfRdata1 := none
    rfRaddr2 := none
    rfRdata2 := none
    rfRaddr3 := Config.retReg
    rfRdata3 := s.readReg Config.retReg
    rfWe := false
    rfWaddr := none
    rfWdata := none
    rfZero := false
    dnpc := none
    memReq := .none
    memRdata := none
    memFault := false
    fetchFault := true
    signalEnd := none
    signalInvalid := none
    status := none }

/-- The interface values of the step from a running state (R23). -/
def State.ports (s : State) : Ports :=
  match s.setCursor.fetch with
  | .ok (w, t) => t.defaultDnpc.portsFor w
  | .error _ => s.portsOfFetchFault

end Sys2Proof.Machine
end

