-- ==== Sys2Proof/WellFormed.lean ====
section
/-!
DEFINITION. Which instructions have a word: branch and jump offsets are even (30_encoding.md R61,
R63), and `inv` carries a word that matches none of rows 0 to 45 (R71). Every other operand value is
legal (R73).
-/

namespace Sys2Proof

/-- Bit 0 of an offset is zero. -/
def evenOffset {n : Nat} (off : BitVec n) : Bool := !off.getLsbD 0

/-- The word matches none of rows 0 to 45, so the catch-all is selected (R71). -/
def unmatched (w : Word) : Bool := rows.all (fun e => !e.hits w)

/-- The instruction is the decoding of some word. -/
def Instr.wellFormed (i : Instr) : Bool :=
  match i with
  | .beq _ _ off | .bne _ _ off | .blt _ _ off | .bge _ _ off | .bltu _ _ off | .bgeu _ _ off =>
    evenOffset off
  | .jal _ off => evenOffset off
  | .inv w => unmatched w
  | .jalr _ _ _ | .lb _ _ _ | .lh _ _ _ | .lw _ _ _ | .lbu _ _ _ | .lhu _ _ _ => true
  | .sb _ _ _ | .sh _ _ _ | .sw _ _ _ => true
  | .addi _ _ _ | .slti _ _ _ | .sltiu _ _ _ | .xori _ _ _ | .ori _ _ _ | .andi _ _ _ => true
  | .slli _ _ _ | .srli _ _ _ | .srai _ _ _ => true
  | .add _ _ _ | .sub _ _ _ | .sll _ _ _ | .slt _ _ _ | .sltu _ _ _ => true
  | .xor _ _ _ | .srl _ _ _ | .sra _ _ _ | .or _ _ _ | .and _ _ _ => true
  | .mul _ _ _ | .mulh _ _ _ | .mulhsu _ _ _ | .mulhu _ _ _ => true
  | .div _ _ _ | .divu _ _ _ | .rem _ _ _ | .remu _ _ _ => true
  | .lui _ _ | .auipc _ _ => true
  | .nemuTrap => true

end Sys2Proof
end

