-- ==== Sys2Proof/Safety.lean ====
section
/-!
DEFINITION. The terms the statements use: the invariant, what an instruction's effect is and what it
leaves alone, what causes a terminal condition, and the instruction families of the whole-machine rules.
-/

namespace Sys2Proof.Machine

/-- The invariant: memory is in canonical form and register 0 holds zero (R13). -/
abbrev State.Inv (s : State) : Prop := s.mem.wf ∧ s.readReg 0 = 0#32

/-- The byte of guest memory at a machine-word address. -/
def State.byte (s : State) (a : Word) : Byte := s.mem.byteAt a.toNat

/-- What an instruction does: the register it writes, the next pc it chooses, the bytes it stores from
an address up, the terminal condition it raises. What is not named does not happen. -/
structure Effect where
  reg    : Option (Reg × Word) := none
  dnpc   : Option Word := none
  store  : Option (Word × List Byte) := none
  raised : Option Condition := none

/-- Register `r` after the effect: the value written if `r` is the destination and not register 0,
else what it was (R12, R13). -/
def Effect.regAfter (e : Effect) (s : State) (r : Reg) : Word :=
  match e.reg with
  | some (rd, v) => if r = rd ∧ r ≠ 0 then v else s.readReg r
  | none => s.readReg r

/-- The byte at address `a` after the effect: the stored byte at offset `a - addr` modulo 2^32 if there
is one, else what it was. -/
def Effect.byteAfter (e : Effect) (s : State) (a : Nat) : Byte :=
  match e.store with
  | some (addr, bs) =>
    if a < 2 ^ 32 ∧ (BitVec.ofNat 32 a - addr).toNat < bs.length then
      bs.getD (BitVec.ofNat 32 a - addr).toNat 0#8
    else s.mem.byteAt a
  | none => s.mem.byteAt a

/-- The run status after the effect. -/
def Effect.statusAfter (e : Effect) (s : State) : RunStatus :=
  match e.raised with
  | some c => .terminated c
  | none => s.status

/-- `t` is `s` after the effect and nothing else: every register, the program counters, the run status,
every byte of memory, the parameters and the model's counter are accounted for. -/
structure Effect.Holds (e : Effect) (s t : State) : Prop where
  regs : ∀ r, t.readReg r = e.regAfter s r
  pc : t.pc = s.pc
  snpc : t.snpc = s.snpc
  dnpc : t.dnpc = e.dnpc.getD s.dnpc
  status : t.status = e.statusAfter s
  bytes : ∀ a, t.mem.byteAt a = e.byteAfter s a
  params : t.params = s.params
  freeCount : t.freeCount = s.freeCount

/-- The instruction completes: `exec` answers a next state, which has the effect and nothing else. -/
def Does (i : Instr) (s : State) (e : Effect) : Prop := ∃ t, exec i s = .next t ∧ e.Holds s t

/-- The effect of writing one register. -/
def writes (rd : Reg) (v : Word) : Effect := { reg := some (rd, v) }

/-- The effect of choosing the next pc, if there is one to choose. -/
def jumps (target : Option Word) : Effect := { dnpc := target }

/-- The effect of storing bytes from an address up. -/
def stores (addr : Word) (bs : List Byte) : Effect := { store := some (addr, bs) }

/-- The effect of raising a terminal condition. -/
def raises (c : Condition) : Effect := { raised := some c }

/-- Guest memory after a data request (R33): the bytes of a write that is served, lowest address first. -/
def MemReq.after (q : MemReq) (refused : Bool) (m : Memory) : Memory :=
  match q with
  | .write addr len v _ => if refused then m else m.writeBytes addr (toBytesLE (AccessLen.bytes len) v)
  | .none | .read _ _ _ => m

/-- The branches and jumps: the only actions that override `dnpc` (R16). -/
def isTransfer (i : Instr) : Bool :=
  match i.mnemonic with
  | .beq | .bne | .blt | .bge | .bltu | .bgeu | .jal | .jalr => true
  | .lb | .lh | .lw | .lbu | .lhu | .sb | .sh | .sw => false
  | .addi | .slti | .sltiu | .xori | .ori | .andi | .slli | .srli | .srai => false
  | .add | .sub | .sll | .slt | .sltu | .xor | .srl | .sra | .or | .and => false
  | .mul | .mulh | .mulhsu | .mulhu | .div | .divu | .rem | .remu => false
  | .lui | .auipc | .nemuTrap | .inv => false

/-- The length of an instruction's one data access, and whether it stores; none for the instructions
that do not reach memory (R30, R36). -/
def dataAccess (i : Instr) : Option (AccessKind × AccessLen) :=
  match i.mnemonic with
  | .lb | .lbu => some (.read, .one)
  | .lh | .lhu => some (.read, .two)
  | .lw => some (.read, .four)
  | .sb => some (.write, .one)
  | .sh => some (.write, .two)
  | .sw => some (.write, .four)
  | .beq | .bne | .blt | .bge | .bltu | .bgeu | .jal | .jalr => none
  | .addi | .slti | .sltiu | .xori | .ori | .andi | .slli | .srli | .srai => none
  | .add | .sub | .sll | .slt | .sltu | .xor | .srl | .sra | .or | .and => none
  | .mul | .mulh | .mulhsu | .mulhu | .div | .divu | .rem | .remu => none
  | .lui | .auipc | .nemuTrap | .inv => none

/-- The register an instruction names as its destination: formats R, I, U and J have one, S, B and N
have none (R12). -/
def destination (i : Instr) : Option Reg :=
  match i with
  | .jal rd _ | .lui rd _ | .auipc rd _ => some rd
  | .jalr rd _ _ | .lb rd _ _ | .lh rd _ _ | .lw rd _ _ | .lbu rd _ _ | .lhu rd _ _ => some rd
  | .addi rd _ _ | .slti rd _ _ | .sltiu rd _ _ | .xori rd _ _ | .ori rd _ _ | .andi rd _ _ => some rd
  | .slli rd _ _ | .srli rd _ _ | .srai rd _ _ => some rd
  | .add rd _ _ | .sub rd _ _ | .sll rd _ _ | .slt rd _ _ | .sltu rd _ _ => some rd
  | .xor rd _ _ | .srl rd _ _ | .sra rd _ _ | .or rd _ _ | .and rd _ _ => some rd
  | .mul rd _ _ | .mulh rd _ _ | .mulhsu rd _ _ | .mulhu rd _ _ => some rd
  | .div rd _ _ | .divu rd _ _ | .rem rd _ _ | .remu rd _ _ => some rd
  | .beq _ _ _ | .bne _ _ _ | .blt _ _ _ | .bge _ _ _ | .bltu _ _ _ | .bgeu _ _ _ => none
  | .sb _ _ _ | .sh _ _ _ | .sw _ _ _ => none
  | .nemuTrap | .inv _ => none

/-- The operand bundle of an instruction, by its format (R84 to R91): the one its action runs over. -/
def State.operandsOf (s : State) (i : Instr) : Bundle :=
  match i with
  | .beq rs1 rs2 off | .bne rs1 rs2 off | .blt rs1 rs2 off => s.operandsB rs1 rs2 off
  | .bge rs1 rs2 off | .bltu rs1 rs2 off | .bgeu rs1 rs2 off => s.operandsB rs1 rs2 off
  | .jal _ off => operandsJ off
  | .jalr _ rs1 imm => s.operandsI rs1 imm
  | .lb _ rs1 imm | .lh _ rs1 imm | .lw _ rs1 imm | .lbu _ rs1 imm | .lhu _ rs1 imm => s.operandsI rs1 imm
  | .sb rs1 rs2 imm | .sh rs1 rs2 imm | .sw rs1 rs2 imm => s.operandsS rs1 rs2 imm
  | .addi _ rs1 imm | .slti _ rs1 imm | .sltiu _ rs1 imm => s.operandsI rs1 imm
  | .xori _ rs1 imm | .ori _ rs1 imm | .andi _ rs1 imm => s.operandsI rs1 imm
  | .slli _ rs1 shamt | .srli _ rs1 shamt => s.operandsI rs1 (shiftImm shamt)
  | .srai _ rs1 shamt => s.operandsI rs1 (shiftImmArith shamt)
  | .add _ rs1 rs2 | .sub _ rs1 rs2 | .sll _ rs1 rs2 | .slt _ rs1 rs2 | .sltu _ rs1 rs2 => s.operandsR rs1 rs2
  | .xor _ rs1 rs2 | .srl _ rs1 rs2 | .sra _ rs1 rs2 | .or _ rs1 rs2 | .and _ rs1 rs2 => s.operandsR rs1 rs2
  | .mul _ rs1 rs2 | .mulh _ rs1 rs2 | .mulhsu _ rs1 rs2 | .mulhu _ rs1 rs2 => s.operandsR rs1 rs2
  | .div _ rs1 rs2 | .divu _ rs1 rs2 | .rem _ rs1 rs2 | .remu _ rs1 rs2 => s.operandsR rs1 rs2
  | .lui _ imm20 | .auipc _ imm20 => operandsU imm20
  | .nemuTrap | .inv _ => operandsN

/-- The condition has one of the three causes of R240, seen from the running state it ends: the fetch
at `pc` is refused; the word at `pc` is `nemu_trap`; the word at `pc` matches no row; or the data
access of the load or store at `pc` is refused. The address of that access is `addr`. -/
def CausedBy (s : State) (c : Condition) : Prop :=
  (s.admits .fetch s.pc .four = false ∧ c = .memFault .fetch s.pc .four) ∨
  ∃ w t, s.setCursor.fetch = .ok (w, t) ∧
    ((decodeWord w = .nemuTrap ∧ c = .ended s.pc (s.readReg Config.retReg)) ∨
     (decodeWord w = .inv w ∧ c = .invalid s.pc) ∨
     ∃ kind len addr, dataAccess (decodeWord w) = some (kind, len) ∧ s.admits kind addr len = false ∧
       addr = effectiveAddr (decodeOperand w (select w).tag s) ∧ c = .memFault kind addr len)

end Sys2Proof.Machine
end

