-- ==== Sys2Proof/Certificates/Slice0/Obligations.lean ====
section
/-!
DEFINITION. The statements for the provers. Each docstring names the rule it formalises; where a clause
rests on one of the spec's own decisions (D<n> of 92_eei_decisions.md) or on a choice of this model
(a log entry), it says so. `u(v)` is `v.toNat` and `s(v)` is `v.toInt`; `Does i s e` says that `exec i s`
answers a next state which has the effect `e` and differs from `s` in nothing else.
-/

open Sys2Proof Sys2Proof.Machine

/-! ## Reset and runs -/

/-- The state after reset: `x[0]` = 0, `pc` = RESET_PC's default and `Running` are the spec's (R24); zero
in x[1] to x[31] (log entry 1), in `snpc` and `dnpc` (log entry 3), the empty memory (log entry 4) and
the default parameters (log entries 2, 5, 6) are the values this model names. -/
def Obligations.ResetStateHoldsNamedValues : Prop :=
  (∀ r, State.reset.readReg r = 0#32) ∧ State.reset.pc = 0x80000000#32 ∧ State.reset.snpc = 0#32 ∧
    State.reset.dnpc = 0#32 ∧ State.reset.status = .running ∧ (∀ a, State.reset.mem.byteAt a = 0#8) ∧
    State.reset.params = Params.default

/-- A new run is a reset: `Running`, `pc` = RESET_PC, x[0] = 0, the host's memory, and every other
register holds whatever it holds (R271, R24; the spec's decisions D17, D18). -/
def Obligations.NewRunIsReset : Prop :=
  ∀ (s : State) (xs : Vector Word 31) (m : Memory),
    (s.newRun xs m).status = .running ∧ (s.newRun xs m).pc = s.params.resetPc ∧
    (s.newRun xs m).readReg 0 = 0#32 ∧ (∀ k : Fin 31, (s.newRun xs m).readReg k.succ = xs[k]) ∧
    (s.newRun xs m).mem = m ∧ (s.newRun xs m).params = s.params

/-- Every reset state whose memory is in canonical form meets the invariant; `State.reset` does. -/
def Obligations.ResetMeetsInvariant : Prop :=
  State.reset.Inv ∧ ∀ (p : Params) (xs : Vector Word 31) (m : Memory) (n : Nat), m.wf →
    (State.resetWith p xs m n).Inv

/-- Every step from every state that meets the invariant (canonical memory, x[0] = 0) keeps it. -/
def Obligations.StepKeepsInvariant : Prop := ∀ s t : State, s.Inv → step s = .next t → t.Inv

/-- Every run, however long, from every state that meets the invariant ends in a state that meets it: in
particular x[0] is 0 at the start of every decode step (R13, consequence (a), derived there). -/
def Obligations.RunsKeepInvariant : Prop :=
  ∀ (k : Nat) (s t : State), s.Inv → Sys2Proof.core.run k s = .next t → t.Inv

/-- Step 5: register 0 is zero after every step that reaches it, from every state, whatever the
instruction (R112). -/
def Obligations.StepForcesRegisterZero : Prop :=
  ∀ s t : State, step s = .next t → t.reachesStep5 = true → t.readReg 0 = 0#32

/-! ## Encoding -/

/-- Decoding the word of a well-formed instruction gives the instruction back, with every operand. That `inv`
has a word as operand is the model's choice (log entry 14). -/
def Obligations.DecodeOfEncode : Prop := ∀ i : Instr, i.wellFormed = true → decodeWord (encode i) = i

/-- Every word decodes to a well-formed instruction whose word it is: no two words are one instruction. For the
words no row matches this is the model's choice (log entry 14): `inv` carries its word, which the spec's
`inv` does not (R58, R232). -/
def Obligations.EncodeOfDecode : Prop :=
  ∀ w : Word, (decodeWord w).wellFormed = true ∧ encode (decodeWord w) = w

/-- From bytes: a well-formed instruction's four bytes decode to it and leave the bytes after them, and
exactly the inputs of fewer than four bytes are rejected. -/
def Obligations.BytesDecodeToInstruction : Prop :=
  (∀ (i : Instr) (rest : List Byte), i.wellFormed = true → decode (encodeBytes i ++ rest) = .ok (i, rest)) ∧
  ∀ bs : List Byte, decode bs = .error .truncated ↔ bs.length < 4

/-- Rows 0 to 45 are pairwise disjoint (R68, which the spec derives from the table of its decision D1). -/
def Obligations.RowsPairwiseDisjoint : Prop :=
  ∀ (w : Word) (e f : Entry), e ∈ rows → f ∈ rows → e.hits w = true → f.hits w = true → e = f

/-- First match wins, and the selection is total: the selected index is below 47, its entry matches, and
no entry before it does (R102, R103). -/
def Obligations.FirstMatchSelects : Prop :=
  ∀ w : Word, ∃ h : sel w < patternTable.length, patternTable.length = 47 ∧ patternTable[sel w] = select w ∧
    (select w).hits w = true ∧ ∀ (n : Nat) (hn : n < sel w), patternTable[n].hits w = false

/-- `inv` takes exactly the words no row matches, and `nemu_trap` exactly the word 0x00100073 (R70, R71,
R232; the trap's word and the rows' fixed bits are the spec's decisions D11 and D1). The clause that an
`inv` carries the very word it was decoded from is the model's choice (log entry 14). -/
def Obligations.CatchAllTakesUnmatchedWords : Prop :=
  ∀ w : Word, (decodeWord w = .inv w ↔ ∀ e ∈ rows, e.hits w = false) ∧
    (∀ v, decodeWord w = .inv v → v = w) ∧ (decodeWord w = .nemuTrap ↔ w = 0x00100073#32)

/-- A pattern string as key and mask (R66): the mask bit says the character is fixed, the key bit that
it is `1`; a word matches iff every fixed character equals its bit (R101). The leftmost significant
character is bit 31, the spec's decision D3. -/
def Obligations.PatternIsKeyAndMask : Prop :=
  ∀ (text : String) (key mask : Word), parsePattern text = some (key, mask) →
    (∀ k < 32, (mask.getLsbD (31 - k) = true ↔ (significant text).getD k '?' ≠ '?') ∧
      (key.getLsbD (31 - k) = true ↔ (significant text).getD k '?' = '1')) ∧
    key &&& ~~~mask = 0#32 ∧
    ∀ w : Word, w &&& mask = key ↔
      ∀ k < 32, (significant text).getD k '?' = '?' ∨
        w.getLsbD (31 - k) = decide ((significant text).getD k '?' = '1')

/-- The table's rows: each entry's key and mask are its pattern string's, its tag is its mnemonic's, the actions
stand in the table's order, and the catch-all is the last of the 47 (R67, the spec's decisions D1, D4, D5,
D11). -/
def Obligations.RowsAgreeWithPatterns : Prop :=
  (∀ e ∈ patternTable, parsePattern e.pattern = some (e.key, e.mask) ∧ e.tag = e.action.tag) ∧
    patternTable.map Entry.action =
      [.beq, .bne, .blt, .bge, .bltu, .bgeu, .jal, .jalr, .lb, .lh, .lw, .lbu, .lhu, .sb, .sh, .sw, .addi, .slti,
       .sltiu, .xori, .ori, .andi, .slli, .srli, .srai, .add, .sub, .sll, .slt, .sltu, .xor, .srl, .sra, .or, .and,
       .mul, .mulh, .mulhsu, .mulhu, .div, .divu, .rem, .remu, .lui, .auipc, .nemuTrap, .inv] ∧
    patternTable.length = 47 ∧ patternTable[46]? = some catchAll ∧ catchAll.mask = 0#32

/-- Words the spec writes out, and what they are (R74, R85 to R89, R121 to R231 examples). -/
def Obligations.SpecWordsDecode : Prop :=
  decodeWord 0x00a00293#32 = .addi 5 0 10#12 ∧ decodeWord 0xfe208ee3#32 = .beq 1 2 0x1ffc#13 ∧
  decodeWord 0xffdff06f#32 = .jal 0 0x1ffffc#21 ∧ decodeWord 0xfe312e23#32 = .sw 2 3 0xffc#12 ∧
  decodeWord 0xffc12503#32 = .lw 10 2 0xffc#12 ∧ decodeWord 0x002081b3#32 = .add 3 1 2 ∧
  decodeWord 0x41f0d293#32 = .srai 5 1 31#5 ∧ decodeWord 0x022091b3#32 = .mulh 3 1 2 ∧
  decodeWord 0x123452b7#32 = .lui 5 0x12345#20 ∧ decodeWord 0x00100073#32 = .nemuTrap ∧
  decodeWord 0x00000073#32 = .inv 0x00000073#32

/-! ## Extractor and operand decoder -/

/-- `bits`: result bit k is word bit lo + k for k up to hi - lo, and all higher result bits are 0 (R80). -/
def Obligations.BitsExtractField : Prop :=
  ∀ (w : Word) (hi lo : Nat), lo ≤ hi → hi ≤ 31 → ∃ n, bits w hi lo = some n ∧ n < 2 ^ (hi - lo + 1) ∧
    ∀ k, n.testBit k = (decide (k ≤ hi - lo) && w.getLsbD (lo + k))

/-- `bits` refuses every call outside its precondition (R81; the refusal is the spec's decision D26). -/
def Obligations.BitsRefuseBadRange : Prop :=
  ∀ (w : Word) (hi lo : Nat), bits w hi lo = none ↔ ¬ (lo ≤ hi ∧ hi ≤ 31)

/-- `sign_extend`: result bit k is value bit k below the width and value bit width - 1 from it on
(R82; that higher bits of the value are ignored is the spec's decision D26). -/
def Obligations.SignExtendBits : Prop :=
  ∀ value width : Nat, 1 ≤ width → width ≤ 32 → ∀ k < 32,
    (signExtend value width).getLsbD k = value.testBit (if k < width then k else width - 1)

/-- The law of `sign_extend`: its signed reading is the two's-complement value of the field, and the
field is cut out of it again (R83; the second half is derived there). -/
def Obligations.SignExtendIsTwosComplement : Prop :=
  ∀ v width : Nat, 1 ≤ width → width ≤ 32 → v < 2 ^ width →
    (signExtend v width).toInt = (if v < 2 ^ (width - 1) then (v : Int) else v - 2 ^ width) ∧
    bits (signExtend v width) (width - 1) 0 = some v

/-- The operand multiplexer, tag by tag, with every immediate bit (R85 to R91; the sign extension of
format B is that of 90_conflicts.md C1). -/
def Obligations.OperandsByTag : Prop :=
  ∀ (w : Word) (s : State),
    decodeOperand w .i s =
      { src1 := s.readReg (rs1Field w), src2 := (w.extractLsb' 20 12).signExtend 32,
        imm := (w.extractLsb' 20 12).signExtend 32 } ∧
    decodeOperand w .u s = { src1 := 0#32, src2 := 0#32, imm := w.extractLsb' 12 20 ++ 0#12 } ∧
    decodeOperand w .j s =
      { src1 := 0#32, src2 := 0#32,
        imm := (w.extractLsb' 31 1 ++ w.extractLsb' 12 8 ++ w.extractLsb' 20 1 ++ w.extractLsb' 21 10 ++
          0#1).signExtend 32 } ∧
    decodeOperand w .s s =
      { src1 := s.readReg (rs1Field w), src2 := s.readReg (rs2Field w),
        imm := (w.extractLsb' 25 7 ++ w.extractLsb' 7 5).signExtend 32 } ∧
    decodeOperand w .b s =
      { src1 := s.readReg (rs1Field w), src2 := s.readReg (rs2Field w),
        imm := (w.extractLsb' 31 1 ++ w.extractLsb' 7 1 ++ w.extractLsb' 25 6 ++ w.extractLsb' 8 4 ++
          0#1).signExtend 32 } ∧
    decodeOperand w .r s =
      { src1 := s.readReg (rs1Field w), src2 := s.readReg (rs2Field w), imm := 0#32 } ∧
    decodeOperand w .n s = { src1 := 0#32, src2 := 0#32, imm := 0#32 }

/-- The step that decodes a word to an instruction and executes it is the step the spec composes from its
sub-blocks: first match in the table, operands by the entry's tag, the entry's action over the bundle
and `rd` (R102, R110, R111, R114). -/
def Obligations.TableStepIsStep : Prop := ∀ s : State, s.status = .running → execOnceByTable s = step s

/-! ## The step -/

/-- A step runs the decoded instruction: when the four bytes at `pc` decode to `i` and the fetch is
admitted, `step` is `exec i` on the state whose `snpc` and `dnpc` are `pc + 4`, followed by step 5 and
the commit of `dnpc` (R114, R115; the wrapper is the spec's decision D19, the byte order D12). That the
bytes at `pc + 1` to `pc + 3` are those modulo 2^32 when `pc` is above 0xfffffffc is the model's inference
(log entry 9). -/
def Obligations.StepRunsDecodedInstruction : Prop :=
  ∀ (s : State) (i : Instr), s.status = .running → s.admits .fetch s.pc .four = true →
    decode [s.byte s.pc, s.byte (s.pc + 1#32), s.byte (s.pc + 2#32), s.byte (s.pc + 3#32)] = .ok (i, []) →
    step s = mapNext State.commit (mapNext State.finishStep
      (exec i { s with snpc := s.pc + 4#32, dnpc := s.pc + 4#32 }))

/-- Instruction fetch: admitted, it is the little-endian word of the four bytes at the cursor, which
advances by 4, and nothing else changes; refused, the step ends with MemFault(fetch, pc, 4) and
changes no register, no byte of memory and no program counter (R31, R108; byte order D12, fault D21). That
a fetch across 0xffffffff goes on at address 0 is the model's inference (log entry 9). -/
def Obligations.FetchReadsWordOrFaults : Prop :=
  ∀ s : State,
    (s.admits .fetch s.snpc .four = true →
      s.fetch = .ok (s.byte (s.snpc + 3#32) ++ s.byte (s.snpc + 2#32) ++ s.byte (s.snpc + 1#32) ++ s.byte s.snpc,
        { s with snpc := s.snpc + 4#32 })) ∧
    (s.admits .fetch s.snpc .four = false → s.snpc = s.pc →
      decodeStep s = .next { s with status := .terminated (.memFault .fetch s.pc .four) })

/-- Once a terminal condition has ended the run no further step is taken, now or later, and a new run is
a reset, which the host starts (R249). That a step is then answered by the fault `runOver` is the model's
inference (log entry 10), and so is the counter of free values going on into the new run (log entry 7). -/
def Obligations.NoStepAfterTerminalCondition : Prop :=
  ∀ (s : State) (c : Condition), s.status = .terminated c →
    step s = .fault (.runOver c) ∧ (∀ (k : Nat) (t : State), Sys2Proof.core.run (k + 1) s ≠ .next t) ∧
    ∀ (xs : Vector Word 31) (m : Memory), s.newRun xs m = State.resetWith s.params xs m s.freeCount

/-- While the run goes on every step answers a next state: no word, no operand and no access makes the
machine fault or refuse (R103, R240). -/
def Obligations.RunningStepAnswersNext : Prop := ∀ s : State, s.status = .running → ∃ t, step s = .next t

/-- After a step that ends without a terminal condition `pc` is `dnpc` and `snpc` is the old `pc + 4`;
`dnpc` is that too unless the instruction is a branch or a jump (R15, R16, R17; the commit is the
spec's decision D19). -/
def Obligations.ContinueCommitsDnpc : Prop :=
  ∀ s t : State, step s = .next t → t.status = .running →
    t.pc = t.dnpc ∧ t.snpc = s.pc + 4#32 ∧
    ∃ w u, s.setCursor.fetch = .ok (w, u) ∧ (isTransfer (decodeWord w) = false → t.dnpc = s.pc + 4#32)

/-- Nothing a step does depends on the `snpc` and `dnpc` of before: each is assigned in the step before
it is read (R20, derived there). For a step that ends with a terminal condition this is the model's choice
(log entry 7): `pc`, `snpc` and `dnpc` are then free values that depend on the model's counter alone, which
is also what removes the old `dnpc` when the fetch is refused. -/
def Obligations.StepIgnoresOldCursors : Prop :=
  ∀ (s : State) (a b : Word), step { s with snpc := a, dnpc := b } = step s

/-- Terminal conditions are precise: the step that raises one changes no register and no memory (R248,
derived there; x[0] holds zero before it by the invariant). -/
def Obligations.TerminalConditionsArePrecise : Prop :=
  ∀ (s t : State) (c : Condition), s.readReg 0 = 0#32 → step s = .next t → t.status = .terminated c →
    (∀ r, t.readReg r = s.readReg r) ∧ t.mem = s.mem ∧ t.params = s.params

/-- A terminal condition has exactly one of the causes of the taxonomy, and each cause raises it (R240 to
R243, R246). -/
def Obligations.TerminalConditionsHaveCauses : Prop :=
  ∀ (s t : State) (c : Condition), s.status = .running → step s = .next t →
    (t.status = .terminated c ↔ CausedBy s c)

/-- The named interface values account for what the step does: the write port for every register but 0, the
zero port for register 0, the request port for memory, the faults and signals for the run status with the
arguments of its condition, the next `pc`, `snpc` and `dnpc` while the run goes on; nothing changes the
parameters; a step that ends before step 6 returns nothing. The list of values is the spec's (R23, its
decision D24); that they are functions of the state, with the write data read off a run with destination 1,
and what a step that ends before steps 5 and 6 exchanges, are the model's choice (log entry 12). -/
def Obligations.PortsAccountForStep : Prop :=
  ∀ s t : State, s.status = .running → step s = .next t →
    s.ports.pc = s.pc ∧ s.ports.fetchFault = !s.admits .fetch s.pc .four ∧
    (s.ports.fetchFault = true → s.ports.rfWe = false ∧ s.ports.rfZero = false ∧ s.ports.memReq = .none) ∧
    (∀ r, r ≠ 0 → some (t.readReg r) =
      if s.ports.rfWe = true ∧ s.ports.rfWaddr = some r then s.ports.rfWdata else some (s.readReg r)) ∧
    t.readReg 0 = (if s.ports.rfZero = true then 0#32 else s.readReg 0) ∧
    t.mem = s.ports.memReq.after s.ports.memFault s.mem ∧ t.params = s.params ∧
    (t.status = .running ↔ s.ports.fetchFault = false ∧ s.ports.memFault = false ∧
      s.ports.signalEnd = none ∧ s.ports.signalInvalid = none) ∧
    (∀ kind a n, t.status = .terminated (.memFault kind a n) ↔
      (s.ports.fetchFault = true ∧ kind = .fetch ∧ a = s.ports.snpcIn ∧ n = .four) ∨
      (s.ports.memFault = true ∧ s.ports.memReq.access = some (kind, a, n))) ∧
    (∀ a code, t.status = .terminated (.ended a code) ↔ s.ports.signalEnd = some (a, code)) ∧
    (∀ a, t.status = .terminated (.invalid a) ↔ s.ports.signalInvalid = some a) ∧
    (t.status = .running →
      some t.pc = s.ports.dnpc ∧ some t.dnpc = s.ports.dnpc ∧ some t.snpc = s.ports.snpcOut) ∧
    s.ports.status = if s.ports.fetchFault = true ∨ s.ports.memFault = true then none else some 0

/-! ## What every instruction may and may not touch -/

/-- Exactly the branches, `jal` and `jalr` override `dnpc`; every other action leaves it (R16). -/
def Obligations.OnlyTransfersOverrideDnpc : Prop :=
  (∀ (i : Instr) (s t : State), isTransfer i = false → exec i s = .next t → t.dnpc = s.dnpc) ∧
  ∀ s : State, s.status = .running → ∀ w u, s.setCursor.fetch = .ok (w, u) →
    u.defaultDnpc.dnpc = u.snpc ∧ u.snpc = s.pc + 4#32

/-- What an action leaves alone. It never writes `pc`, `snpc` or the parameters; it writes `dnpc` only if it is a
branch or a jump; it writes no register but its destination, and none at all in formats S, B and N; it
changes the run status only if it accesses memory or is `nemu_trap` or `inv`; it changes memory only if it is
a store, and then only the bytes of its length from its effective address up (R12, R16, R30, R105, R140). That
register 0 keeps its value also between the action and step 5 is the model's choice (log entry 13; R13 (d)
allows a transient value), and that the bytes of a store go on modulo 2^32 its inference (log entry 9). -/
def Obligations.ActionsKeepToTheirScope : Prop :=
  ∀ (i : Instr) (s : State), ∃ t, exec i s = .next t ∧ t.pc = s.pc ∧ t.snpc = s.snpc ∧ t.params = s.params ∧
    t.freeCount = s.freeCount ∧ (isTransfer i = false → t.dnpc = s.dnpc) ∧
    (∀ r, destination i ≠ some r → t.readReg r = s.readReg r) ∧ t.readReg 0 = s.readReg 0 ∧
    (dataAccess i = none → i ≠ .nemuTrap → (∀ w, i ≠ .inv w) → t.status = s.status) ∧
    ((∀ n, dataAccess i ≠ some (.write, n)) → t.mem = s.mem) ∧
    (∀ n, dataAccess i = some (.write, n) → ∀ a : Nat,
      ¬ (a < 2 ^ 32 ∧ (BitVec.ofNat 32 a - effectiveAddr (s.operandsOf i)).toNat < AccessLen.bytes n) →
      t.mem.byteAt a = s.mem.byteAt a)

/-! ## Control transfer -/

/-- `beq`: taken iff all 32 bits are equal; the target is `pc + imm` modulo 2^32 (R121). -/
def Obligations.BranchEqualTarget : Prop :=
  ∀ (s : State) (rs1 rs2 : Reg) (off : BitVec 13),
    Does (.beq rs1 rs2 off) s (jumps
      (if s.readReg rs1 = s.readReg rs2 then some (BitVec.ofInt 32 (s.pc.toNat + off.toInt)) else none))

/-- The other conditional branches, each with its relation (R120, R122 to R126; the relations are the
spec's decision D6). -/
def Obligations.BranchRelationTargets : Prop :=
  ∀ (s : State) (rs1 rs2 : Reg) (off : BitVec 13) (target : Word),
    target = BitVec.ofInt 32 (s.pc.toNat + off.toInt) →
    Does (.bne rs1 rs2 off) s (jumps (if s.readReg rs1 ≠ s.readReg rs2 then some target else none)) ∧
    Does (.blt rs1 rs2 off) s (jumps (if (s.readReg rs1).toInt < (s.readReg rs2).toInt then some target else none)) ∧
    Does (.bge rs1 rs2 off) s (jumps (if (s.readReg rs1).toInt ≥ (s.readReg rs2).toInt then some target else none)) ∧
    Does (.bltu rs1 rs2 off) s (jumps (if (s.readReg rs1).toNat < (s.readReg rs2).toNat then some target else none)) ∧
    Does (.bgeu rs1 rs2 off) s (jumps (if (s.readReg rs1).toNat ≥ (s.readReg rs2).toNat then some target else none))

/-- `jal`: `dnpc` is `pc + imm`, `x[rd]` is `snpc`; with rd = 0 the link is discarded (R127). -/
def Obligations.JalLinksAndJumps : Prop :=
  ∀ (s : State) (rd : Reg) (off : BitVec 21),
    Does (.jal rd off) s
      { reg := some (rd, s.snpc), dnpc := some (BitVec.ofInt 32 (s.pc.toNat + off.toInt)) }

/-- `jalr`: `dnpc` is the old `src1` plus `imm`, bit 0 not cleared, `x[rd]` is `snpc`, also when rd = rs1
(R128, R129; bit 0 is the spec's decision D22, the link value derived there). -/
def Obligations.JalrLinksAndJumps : Prop :=
  ∀ (s : State) (rd rs1 : Reg) (imm : BitVec 12),
    Does (.jalr rd rs1 imm) s
      { reg := some (rd, s.snpc), dnpc := some (BitVec.ofInt 32 ((s.readReg rs1).toNat + imm.toInt)) }

/-! ## Loads and stores -/

/-- Loads, for the memory interface's answer at `src1 + imm`: `lb` and `lh` sign-extend the value, `lbu` and
`lhu` zero-extend it, `lw` writes it as it is; when the read faults nothing is written and the fault
MemFault(read, addr, n) is raised (R141 to R145; the fault is the spec's decision D21). -/
def Obligations.LoadsWidenValueRead : Prop :=
  ∀ (s : State) (rd rs1 : Reg) (imm : BitVec 12) (a : Word), a = s.readReg rs1 + imm.signExtend 32 →
    (∀ v, s.memRead a .one = .ok v →
      Does (.lb rd rs1 imm) s (writes rd ((BitVec.ofNat 8 v).signExtend 32)) ∧
      Does (.lbu rd rs1 imm) s (writes rd ((BitVec.ofNat 8 v).setWidth 32))) ∧
    (∀ v, s.memRead a .two = .ok v →
      Does (.lh rd rs1 imm) s (writes rd ((BitVec.ofNat 16 v).signExtend 32)) ∧
      Does (.lhu rd rs1 imm) s (writes rd ((BitVec.ofNat 16 v).setWidth 32))) ∧
    (∀ v, s.memRead a .four = .ok v → Does (.lw rd rs1 imm) s (writes rd (BitVec.ofNat 32 v))) ∧
    (∀ c, s.memRead a .one = .error c → c = .memFault .read a .one ∧
      Does (.lb rd rs1 imm) s (raises c) ∧ Does (.lbu rd rs1 imm) s (raises c)) ∧
    (∀ c, s.memRead a .two = .error c → c = .memFault .read a .two ∧
      Does (.lh rd rs1 imm) s (raises c) ∧ Does (.lhu rd rs1 imm) s (raises c)) ∧
    (∀ c, s.memRead a .four = .error c → c = .memFault .read a .four ∧ Does (.lw rd rs1 imm) s (raises c))

/-- An admitted read answers the little-endian number of its bytes, below 2^(8n); a refused one is a
MemFault (R32, R37; the byte order is the spec's decision D12, the fault D21). That a read past 0xffffffff
goes on at address 0 is the model's inference (log entry 9). -/
def Obligations.ReadsAreLittleEndian : Prop :=
  ∀ (s : State) (a : Word),
    (s.admits .read a .one = true → s.memRead a .one = .ok (s.byte a).toNat) ∧
    (s.admits .read a .two = true → s.memRead a .two = .ok (s.byte (a + 1#32) ++ s.byte a).toNat) ∧
    (s.admits .read a .four = true → s.memRead a .four =
      .ok (s.byte (a + 3#32) ++ s.byte (a + 2#32) ++ s.byte (a + 1#32) ++ s.byte a).toNat) ∧
    ∀ n, s.admits .read a n = false → s.memRead a n = .error (.memFault .read a n)

/-- `sb`: the byte at `src1 + imm` becomes `src2[7:0]` and no other byte changes; a refused write raises
MemFault(write, addr, 1) and changes no byte (R146; the fault is the spec's decision D21). -/
def Obligations.StoreByteStoresLowByte : Prop :=
  ∀ (s : State) (rs1 rs2 : Reg) (imm : BitVec 12) (a : Word), a = s.readReg rs1 + imm.signExtend 32 →
    (s.mem.wf → s.admits .write a .one = true →
      Does (.sb rs1 rs2 imm) s (stores a [(s.readReg rs2).extractLsb' 0 8])) ∧
    (s.admits .write a .one = false → Does (.sb rs1 rs2 imm) s (raises (.memFault .write a .one)))

/-- `sh` and `sw`: the bytes from `src1 + imm` up become the low bytes of `src2`, lowest first, and no
other byte changes (R147, R148; the byte order is the spec's decision D12). That a store past 0xffffffff
goes on at address 0 is the model's inference (log entry 9). -/
def Obligations.StoreHalfAndWord : Prop :=
  ∀ (s : State) (rs1 rs2 : Reg) (imm : BitVec 12), s.mem.wf →
    (s.admits .write (s.readReg rs1 + imm.signExtend 32) .two = true →
      Does (.sh rs1 rs2 imm) s
        { store := some (s.readReg rs1 + imm.signExtend 32,
            [(s.readReg rs2).extractLsb' 0 8, (s.readReg rs2).extractLsb' 8 8]) }) ∧
    (s.admits .write (s.readReg rs1 + imm.signExtend 32) .four = true →
      Does (.sw rs1 rs2 imm) s
        { store := some (s.readReg rs1 + imm.signExtend 32,
            [(s.readReg rs2).extractLsb' 0 8, (s.readReg rs2).extractLsb' 8 8,
             (s.readReg rs2).extractLsb' 16 8, (s.readReg rs2).extractLsb' 24 8]) })

/-- A refused access changes nothing: the load writes no register, the store no byte, and the run ends
with MemFault(kind, addr, n) (R149, R243; the spec's decision D21). -/
def Obligations.RefusedAccessChangesNothing : Prop :=
  ∀ (s : State) (rd rs1 rs2 : Reg) (imm : BitVec 12) (a : Word), a = s.readReg rs1 + imm.signExtend 32 →
    (s.admits .read a .one = false →
      Does (.lb rd rs1 imm) s (raises (.memFault .read a .one)) ∧
      Does (.lbu rd rs1 imm) s (raises (.memFault .read a .one))) ∧
    (s.admits .read a .two = false →
      Does (.lh rd rs1 imm) s (raises (.memFault .read a .two)) ∧
      Does (.lhu rd rs1 imm) s (raises (.memFault .read a .two))) ∧
    (s.admits .read a .four = false → Does (.lw rd rs1 imm) s (raises (.memFault .read a .four))) ∧
    (s.admits .write a .one = false → Does (.sb rs1 rs2 imm) s (raises (.memFault .write a .one))) ∧
    (s.admits .write a .two = false → Does (.sh rs1 rs2 imm) s (raises (.memFault .write a .two))) ∧
    (s.admits .write a .four = false → Does (.sw rs1 rs2 imm) s (raises (.memFault .write a .four)))

/-- After a word store, a word load from the same address gives the word stored, and `lb` and `lbu` from its k-th
address give its k-th byte, lowest address first, as the bytes of memory there are (R37, R41, R141, R143,
R144; the byte order is the spec's decision D12). That the addresses of the bytes wrap modulo 2^32 is the
model's inference (log entry 9). -/
def Obligations.LoadSeesEarlierStore : Prop :=
  ∀ (s t : State) (rs1 rs2 rd : Reg) (imm : BitVec 12) (a : Word), s.mem.wf →
    a = s.readReg rs1 + imm.signExtend 32 → s.admits .write a .four = true →
    exec (.sw rs1 rs2 imm) s = .next t →
    (t.admits .read a .four = true → Does (.lw rd rs1 imm) t (writes rd (s.readReg rs2))) ∧
    ∀ k < 4, t.byte (a + BitVec.ofNat 32 k) = (s.readReg rs2).extractLsb' (8 * k) 8 ∧
      ∀ (r : Reg) (off : BitVec 12), t.readReg r + off.signExtend 32 = a + BitVec.ofNat 32 k →
        t.admits .read (a + BitVec.ofNat 32 k) .one = true →
        Does (.lb rd r off) t (writes rd (((s.readReg rs2).extractLsb' (8 * k) 8).signExtend 32)) ∧
        Does (.lbu rd r off) t (writes rd (((s.readReg rs2).extractLsb' (8 * k) 8).setWidth 32))

/-- A word stored by one instruction is what a later fetch at that address reads, with no fence between
(R43; the spec's decision D15). That both wrap modulo 2^32 past 0xffffffff is the model's inference (log
entry 9). -/
def Obligations.FetchSeesEarlierStore : Prop :=
  ∀ (s t u : State) (rs1 rs2 : Reg) (imm : BitVec 12), s.mem.wf →
    s.admits .write (s.readReg rs1 + imm.signExtend 32) .four = true → exec (.sw rs1 rs2 imm) s = .next t →
    u.mem = t.mem → u.snpc = s.readReg rs1 + imm.signExtend 32 → u.admits .fetch u.snpc .four = true →
    u.fetch = .ok (s.readReg rs2, { u with snpc := u.snpc + 4#32 })

/-- The reference collaborator serves exactly the accesses inside its RAM, aligned or not (R40; the
spec's decisions D13, D14, for test programs). -/
def Obligations.ReferenceRamServesItsRange : Prop :=
  ∀ (s : State) (kind : AccessKind) (a : Word) (n : AccessLen), s.params.memAdmit = .referenceRam →
    (s.admits kind a n = true ↔ 0x80000000 ≤ a.toNat ∧ a.toNat + AccessLen.bytes n ≤ 0x88000000)

/-! ## ALU -/

/-- `addi` and `add`: the sum modulo 2^32, no overflow detected (R161, R181). -/
def Obligations.AdditionsWrap : Prop :=
  ∀ (s : State) (rd rs1 rs2 : Reg) (imm : BitVec 12),
    Does (.addi rd rs1 imm) s (writes rd (BitVec.ofInt 32 ((s.readReg rs1).toInt + imm.toInt))) ∧
    Does (.add rd rs1 rs2) s (writes rd (BitVec.ofNat 32 ((s.readReg rs1).toNat + (s.readReg rs2).toNat)))

/-- `sub` and the set-less-than instructions: 1 or 0, signed or unsigned, the immediate sign-extended
first (R162, R163, R182, R184, R185; what the names mean is the spec's decision D6). -/
def Obligations.DifferencesAndComparisons : Prop :=
  ∀ (s : State) (rd rs1 rs2 : Reg) (imm : BitVec 12),
    Does (.sub rd rs1 rs2) s (writes rd (BitVec.ofInt 32 ((s.readReg rs1).toInt - (s.readReg rs2).toInt))) ∧
    Does (.slti rd rs1 imm) s (writes rd (if (s.readReg rs1).toInt < imm.toInt then 1#32 else 0#32)) ∧
    Does (.sltiu rd rs1 imm) s
      (writes rd (if (s.readReg rs1).toNat < (imm.signExtend 32).toNat then 1#32 else 0#32)) ∧
    Does (.slt rd rs1 rs2) s
      (writes rd (if (s.readReg rs1).toInt < (s.readReg rs2).toInt then 1#32 else 0#32)) ∧
    Does (.sltu rd rs1 rs2) s
      (writes rd (if (s.readReg rs1).toNat < (s.readReg rs2).toNat then 1#32 else 0#32))

/-- The logic instructions act bit by bit on the two operands, the immediate sign-extended (R164 to R166,
R186, R189, R190). -/
def Obligations.LogicActsBitwise : Prop :=
  ∀ (s : State) (rd rs1 rs2 : Reg) (imm : BitVec 12) (a b m : Word), a = s.readReg rs1 → b = s.readReg rs2 →
    m = imm.signExtend 32 →
    ∃ x o n x' o' n' : Word,
      (∀ k, x.getLsbD k = (a.getLsbD k != m.getLsbD k) ∧ o.getLsbD k = (a.getLsbD k || m.getLsbD k) ∧
        n.getLsbD k = (a.getLsbD k && m.getLsbD k) ∧ x'.getLsbD k = (a.getLsbD k != b.getLsbD k) ∧
        o'.getLsbD k = (a.getLsbD k || b.getLsbD k) ∧ n'.getLsbD k = (a.getLsbD k && b.getLsbD k)) ∧
      Does (.xori rd rs1 imm) s (writes rd x) ∧ Does (.ori rd rs1 imm) s (writes rd o) ∧
      Does (.andi rd rs1 imm) s (writes rd n) ∧ Does (.xor rd rs1 rs2) s (writes rd x') ∧
      Does (.or rd rs1 rs2) s (writes rd o') ∧ Does (.and rd rs1 rs2) s (writes rd n')

/-- The shifts by 0 to 31: left shifts multiply by 2^n modulo 2^32, logical right shifts divide `u(src1)`,
arithmetic right shifts divide `s(src1)` rounding down; register shifts use the low 5 bits of `src2`
(R167 to R169, R183, R187, R188). -/
def Obligations.ShiftsScaleByPowersOfTwo : Prop :=
  ∀ (s : State) (rd rs1 rs2 : Reg) (shamt : BitVec 5) (a : Word) (n : Nat), a = s.readReg rs1 →
    n = (s.readReg rs2).toNat % 32 →
    Does (.slli rd rs1 shamt) s (writes rd (BitVec.ofNat 32 (a.toNat * 2 ^ shamt.toNat))) ∧
    Does (.srli rd rs1 shamt) s (writes rd (BitVec.ofNat 32 (a.toNat / 2 ^ shamt.toNat))) ∧
    Does (.srai rd rs1 shamt) s (writes rd (BitVec.ofInt 32 (a.toInt / 2 ^ shamt.toNat))) ∧
    Does (.sll rd rs1 rs2) s (writes rd (BitVec.ofNat 32 (a.toNat * 2 ^ n))) ∧
    Does (.srl rd rs1 rs2) s (writes rd (BitVec.ofNat 32 (a.toNat / 2 ^ n))) ∧
    Does (.sra rd rs1 rs2) s (writes rd (BitVec.ofInt 32 (a.toInt / 2 ^ n)))

/-! ## Multiply and divide -/

/-- `mul`, `mulh` and `mulhu`: the low half, the signed high half and the unsigned high half of the 64-bit
product (R202, R203, R205). -/
def Obligations.ProductsOfSixtyFourBits : Prop :=
  ∀ (s : State) (rd rs1 rs2 : Reg) (a b : Word), a = s.readReg rs1 → b = s.readReg rs2 →
    Does (.mul rd rs1 rs2) s (writes rd ((a.setWidth 64 * b.setWidth 64).extractLsb' 0 32)) ∧
    Does (.mulh rd rs1 rs2) s (writes rd ((a.signExtend 64 * b.signExtend 64).extractLsb' 32 32)) ∧
    Does (.mulhu rd rs1 rs2) s (writes rd ((a.setWidth 64 * b.setWidth 64).extractLsb' 32 32))

/-- `mulhsu`: the high half of signed `src1` times unsigned `src2` (R204; the spec's decision D7). -/
def Obligations.MixedProductHighHalf : Prop :=
  ∀ (s : State) (rd rs1 rs2 : Reg),
    Does (.mulhsu rd rs1 rs2) s
      (writes rd (((s.readReg rs1).signExtend 64 * (s.readReg rs2).setWidth 64).extractLsb' 32 32))

/-- The halves agree with one 64-bit product: {`mulhu`, `mul`} is u(src1) * u(src2), and {`mulh`, `mul`}
is s(src1) * s(src2) modulo 2^64 (R200, derived there; 90_conflicts.md C9). -/
def Obligations.ProductHalvesAgree : Prop :=
  ∀ (s : State) (rd rs1 rs2 : Reg), ∃ lo hiU hiS : Word,
    Does (.mul rd rs1 rs2) s (writes rd lo) ∧ Does (.mulhu rd rs1 rs2) s (writes rd hiU) ∧
    Does (.mulh rd rs1 rs2) s (writes rd hiS) ∧
    hiU.toNat * 2 ^ 32 + lo.toNat = (s.readReg rs1).toNat * (s.readReg rs2).toNat ∧
    hiS.toInt * 2 ^ 32 + lo.toNat = (s.readReg rs1).toInt * (s.readReg rs2).toInt

/-- `divu` and `remu`: quotient and remainder for every non-zero divisor, `DivPolicy` for zero (R207,
R209). -/
def Obligations.UnsignedDivision : Prop :=
  ∀ (s : State) (rd rs1 rs2 : Reg) (a b : Word), a = s.readReg rs1 → b = s.readReg rs2 →
    (b = 0#32 →
      Does (.divu rd rs1 rs2) s (writes rd (DivPolicy.result s.params.divPolicy .divu a b)) ∧
      Does (.remu rd rs1 rs2) s (writes rd (DivPolicy.result s.params.divPolicy .remu a b))) ∧
    (b ≠ 0#32 → ∃ q r : Word, Does (.divu rd rs1 rs2) s (writes rd q) ∧ Does (.remu rd rs1 rs2) s (writes rd r) ∧
      q.toNat * b.toNat + r.toNat = a.toNat ∧ r.toNat < b.toNat)

/-- `div` and `rem` outside the two corners: the quotient truncates toward zero, the remainder has the
dividend's sign and a magnitude below the divisor's, and `div * src2 + rem = src1` (R206, R208; the
rounding is the spec's decision D9). -/
def Obligations.SignedDivisionTruncates : Prop :=
  ∀ (s : State) (rd rs1 rs2 : Reg) (a b : Word), a = s.readReg rs1 → b = s.readReg rs2 → b ≠ 0#32 →
    ¬ (a = 0x80000000#32 ∧ b = 0xffffffff#32) →
    ∃ q r : Word, Does (.div rd rs1 rs2) s (writes rd q) ∧ Does (.rem rd rs1 rs2) s (writes rd r) ∧
      q.toInt * b.toInt + r.toInt = a.toInt ∧ r.toInt.natAbs < b.toInt.natAbs ∧
      (r.toInt = 0 ∨ (r.toInt < 0 ↔ a.toInt < 0))

/-- The division corners complete under every `DivPolicy`, with its result, and never fault: a zero divisor for
all four instructions, the signed overflow for `div` and `rem`; the default policy's results are the table's
(R201; the spec's decision D8). -/
def Obligations.DivisionCorners : Prop :=
  ∀ (s : State) (rd rs1 rs2 : Reg) (a b : Word), a = s.readReg rs1 → b = s.readReg rs2 →
    (b = 0#32 ∨ (a = 0x80000000#32 ∧ b = 0xffffffff#32) →
      Does (.div rd rs1 rs2) s (writes rd (DivPolicy.result s.params.divPolicy .div a b)) ∧
      Does (.rem rd rs1 rs2) s (writes rd (DivPolicy.result s.params.divPolicy .rem a b))) ∧
    (b = 0#32 →
      Does (.divu rd rs1 rs2) s (writes rd (DivPolicy.result s.params.divPolicy .divu a b)) ∧
      Does (.remu rd rs1 rs2) s (writes rd (DivPolicy.result s.params.divPolicy .remu a b))) ∧
    (s.params.divPolicy = .specDefault → b = 0#32 →
      Does (.div rd rs1 rs2) s (writes rd 0xffffffff#32) ∧ Does (.divu rd rs1 rs2) s (writes rd 0xffffffff#32) ∧
      Does (.rem rd rs1 rs2) s (writes rd a) ∧ Does (.remu rd rs1 rs2) s (writes rd a)) ∧
    (s.params.divPolicy = .specDefault → a = 0x80000000#32 → b = 0xffffffff#32 →
      Does (.div rd rs1 rs2) s (writes rd 0x80000000#32) ∧ Does (.divu rd rs1 rs2) s (writes rd 0#32) ∧
      Does (.rem rd rs1 rs2) s (writes rd 0#32) ∧ Does (.remu rd rs1 rs2) s (writes rd 0x80000000#32))

/-! ## Upper immediate and terminal actions -/

/-- `lui` writes `imm20 * 2^12`; `auipc` adds it to the instruction's own `pc` modulo 2^32 (R221, R222; the
two instructions are the spec's decisions D4 and D30). -/
def Obligations.UpperImmediates : Prop :=
  ∀ (s : State) (rd : Reg) (imm20 : BitVec 20),
    Does (.lui rd imm20) s (writes rd (BitVec.ofNat 32 (imm20.toNat * 2 ^ 12))) ∧
    Does (.auipc rd imm20) s (writes rd (BitVec.ofNat 32 (s.pc.toNat + imm20.toNat * 2 ^ 12)))

/-- `nemu_trap` signals Ended(pc, x[RETREG]), read from the register file before the step, and changes
nothing else; RETREG is register 10 (R231, R5; that it is 10 is the spec's decision D10). -/
def Obligations.TrapEndsRunWithExitCode : Prop :=
  Config.retReg = 10 ∧ ∀ s : State, Does .nemuTrap s (raises (.ended s.pc (s.readReg 10)))

/-- `inv` signals Invalid(pc) and changes nothing else (R232). -/
def Obligations.InvalidWordEndsRun : Prop :=
  ∀ (s : State) (w : Word), Does (.inv w) s (raises (.invalid s.pc))
end

