-- ==== Sys2Proof/Laws/Encoding.lean ====
section
/-!
SUPPORT. The formats: what masking an encoded word leaves, and which fields are cut out of it again.
-/

namespace Sys2Proof

/-! ## Matching -/

/-- A word matches an entry when masking it gives the entry's key. -/
theorem hits_of_mask {w v : Word} {e : Entry} (h : w &&& e.mask = v) (hv : v = e.key) : e.hits w = true := by
  simp [Entry.hits, h, hv]

/-- A matching word agrees with the entry's key on every fixed field. -/
theorem key_field_of_hits {w : Word} {e : Entry} (h : e.hits w = true) (lo n : Nat)
    (hm : e.mask.extractLsb' lo n = BitVec.allOnes n) : e.key.extractLsb' lo n = w.extractLsb' lo n := by
  simp only [Entry.hits, beq_iff_eq] at h
  rw [← h]
  apply BitVec.eq_of_getLsbD_eq
  intro k hk
  have := congrArg (fun v => v.getLsbD k) hm
  simp [hk] at this ⊢
  simp [this]

/-! ## What the mask of a format leaves: the fixed fields -/

theorem encodeR_mask (f7 : BitVec 7) (rs2 rs1 : Reg) (f3 : BitVec 3) (rd : Reg) (op : BitVec 7) :
    encodeR f7 rs2 rs1 f3 rd op &&& 0xfe00707f#32 = encodeR f7 0 0 f3 0 op := by
  unfold encodeR
  apply BitVec.eq_of_getLsbD_eq
  intro k hk
  simp only [BitVec.getLsbD_and, BitVec.getLsbD_append]
  interval_cases k <;> simp [regBits]

theorem encodeI_mask (imm : BitVec 12) (rs1 : Reg) (f3 : BitVec 3) (rd : Reg) (op : BitVec 7) :
    encodeI imm rs1 f3 rd op &&& 0x0000707f#32 = encodeI 0 0 f3 0 op := by
  unfold encodeI
  apply BitVec.eq_of_getLsbD_eq
  intro k hk
  simp only [BitVec.getLsbD_and, BitVec.getLsbD_append]
  interval_cases k <;> simp [regBits]

theorem encodeI_shift_mask (f : BitVec 7) (imm : BitVec 5) (rs1 : Reg) (f3 : BitVec 3) (rd : Reg) (op : BitVec 7) :
    encodeI (f ++ imm) rs1 f3 rd op &&& 0xfe00707f#32 = encodeI (f ++ 0#5) 0 f3 0 op := by
  unfold encodeI
  apply BitVec.eq_of_getLsbD_eq
  intro k hk
  simp only [BitVec.getLsbD_and, BitVec.getLsbD_append]
  interval_cases k <;> simp [regBits]

theorem encodeS_mask (imm : BitVec 12) (rs2 rs1 : Reg) (f3 : BitVec 3) (op : BitVec 7) :
    encodeS imm rs2 rs1 f3 op &&& 0x0000707f#32 = encodeS 0 0 0 f3 op := by
  unfold encodeS
  apply BitVec.eq_of_getLsbD_eq
  intro k hk
  simp only [BitVec.getLsbD_and, BitVec.getLsbD_append]
  interval_cases k <;> simp [regBits]

theorem encodeB_mask (imm : BitVec 13) (rs2 rs1 : Reg) (f3 : BitVec 3) (op : BitVec 7) :
    encodeB imm rs2 rs1 f3 op &&& 0x0000707f#32 = encodeB 0 0 0 f3 op := by
  unfold encodeB
  apply BitVec.eq_of_getLsbD_eq
  intro k hk
  simp only [BitVec.getLsbD_and, BitVec.getLsbD_append]
  interval_cases k <;> simp [regBits]

theorem encodeU_mask (imm : BitVec 20) (rd : Reg) (op : BitVec 7) :
    encodeU imm rd op &&& 0x0000007f#32 = encodeU 0 0 op := by
  unfold encodeU
  apply BitVec.eq_of_getLsbD_eq
  intro k hk
  simp only [BitVec.getLsbD_and, BitVec.getLsbD_append]
  interval_cases k <;> simp [regBits]

theorem encodeJ_mask (imm : BitVec 21) (rd : Reg) (op : BitVec 7) :
    encodeJ imm rd op &&& 0x0000007f#32 = encodeJ 0 0 op := by
  unfold encodeJ
  apply BitVec.eq_of_getLsbD_eq
  intro k hk
  simp only [BitVec.getLsbD_and, BitVec.getLsbD_append]
  interval_cases k <;> simp [regBits]

/-! ## Register fields -/

/-- A field that holds a register's bits is that register. -/
theorem regField_of {w : Word} {lo : Nat} {r : Reg} (h : w.extractLsb' lo 5 = regBits r) : regField w lo = r := by
  unfold regField
  rw [h]
  apply Fin.ext
  have := r.isLt
  simp only [regBits, BitVec.toNat_ofNat, Fin.ofNat]
  omega

/-- The bits of a cut register index are the field. -/
theorem regBits_regField (w : Word) (lo : Nat) : regBits (regField w lo) = w.extractLsb' lo 5 := by
  unfold regBits regField
  apply BitVec.eq_of_toNat_eq
  have := (w.extractLsb' lo 5).isLt
  simp only [Fin.ofNat, BitVec.toNat_ofNat]
  omega

/-! ## The fields of an encoded word -/

theorem encodeR_fields (f7 : BitVec 7) (rs2 rs1 : Reg) (f3 : BitVec 3) (rd : Reg) (op : BitVec 7) :
    rdField (encodeR f7 rs2 rs1 f3 rd op) = rd ∧
      rs1Field (encodeR f7 rs2 rs1 f3 rd op) = rs1 ∧
      rs2Field (encodeR f7 rs2 rs1 f3 rd op) = rs2 := by
  refine ⟨regField_of ?_, regField_of ?_, regField_of ?_⟩ <;>
  · unfold encodeR
    apply BitVec.eq_of_getLsbD_eq
    intro k hk
    simp only [BitVec.getLsbD_extractLsb', BitVec.getLsbD_append]
    interval_cases k <;> simp

theorem encodeI_fields (imm : BitVec 12) (rs1 : Reg) (f3 : BitVec 3) (rd : Reg) (op : BitVec 7) :
    rdField (encodeI imm rs1 f3 rd op) = rd ∧
      rs1Field (encodeI imm rs1 f3 rd op) = rs1 ∧
      immI (encodeI imm rs1 f3 rd op) = imm := by
  refine ⟨regField_of ?_, regField_of ?_, ?_⟩ <;>
  · unfold encodeI
    try unfold immI
    apply BitVec.eq_of_getLsbD_eq
    intro k hk
    simp only [BitVec.getLsbD_extractLsb', BitVec.getLsbD_append]
    interval_cases k <;> simp

theorem encodeI_shamt (f : BitVec 7) (sh : BitVec 5) (rs1 : Reg) (f3 : BitVec 3) (rd : Reg) (op : BitVec 7) :
    shamtField (encodeI (f ++ sh) rs1 f3 rd op) = sh := by
  unfold encodeI shamtField
  apply BitVec.eq_of_getLsbD_eq
  intro k hk
  simp only [BitVec.getLsbD_extractLsb', BitVec.getLsbD_append]
  interval_cases k <;> simp

theorem encodeS_fields (imm : BitVec 12) (rs2 rs1 : Reg) (f3 : BitVec 3) (op : BitVec 7) :
    rs1Field (encodeS imm rs2 rs1 f3 op) = rs1 ∧
      rs2Field (encodeS imm rs2 rs1 f3 op) = rs2 ∧
      immS (encodeS imm rs2 rs1 f3 op) = imm := by
  refine ⟨regField_of ?_, regField_of ?_, ?_⟩ <;>
  · unfold encodeS
    try unfold immS
    apply BitVec.eq_of_getLsbD_eq
    intro k hk
    simp only [BitVec.getLsbD_extractLsb', BitVec.getLsbD_append]
    interval_cases k <;> simp

theorem encodeB_fields (off : BitVec 13) (rs2 rs1 : Reg) (f3 : BitVec 3) (op : BitVec 7)
    (h : evenOffset off = true) :
    rs1Field (encodeB off rs2 rs1 f3 op) = rs1 ∧
      rs2Field (encodeB off rs2 rs1 f3 op) = rs2 ∧
      immB (encodeB off rs2 rs1 f3 op) = off := by
  refine ⟨regField_of ?_, regField_of ?_, ?_⟩ <;>
  · unfold encodeB
    try unfold immB
    simp [evenOffset] at h
    apply BitVec.eq_of_getLsbD_eq
    intro k hk
    simp only [BitVec.getLsbD_extractLsb', BitVec.getLsbD_append]
    interval_cases k <;> simp [h]

theorem encodeJ_fields (off : BitVec 21) (rd : Reg) (op : BitVec 7) (h : evenOffset off = true) :
    rdField (encodeJ off rd op) = rd ∧
      immJ (encodeJ off rd op) = off := by
  refine ⟨regField_of ?_, ?_⟩ <;>
  · unfold encodeJ
    try unfold immJ
    simp [evenOffset] at h
    apply BitVec.eq_of_getLsbD_eq
    intro k hk
    simp only [BitVec.getLsbD_extractLsb', BitVec.getLsbD_append]
    interval_cases k <;> simp [h]

theorem encodeU_fields (imm : BitVec 20) (rd : Reg) (op : BitVec 7) :
    rdField (encodeU imm rd op) = rd ∧
      immU (encodeU imm rd op) = imm := by
  refine ⟨regField_of ?_, ?_⟩ <;>
  · unfold encodeU
    try unfold immU
    apply BitVec.eq_of_getLsbD_eq
    intro k hk
    simp only [BitVec.getLsbD_extractLsb', BitVec.getLsbD_append]
    interval_cases k <;> simp

end Sys2Proof
end

