-- ==== Sys2Proof/Laws/Memory.lean ====
section
/-!
SUPPORT. Memory as data: reading after writing, the canonical form kept by every operation, and equal
memories as equal data.
-/

namespace Sys2Proof.Machine

/-! ## One byte -/

theorem Memory.byteAt_consByte (a x : Nat) (v : Byte) (m : Memory) (h : x ≠ a) :
    (Memory.consByte a v m).byteAt x = m.byteAt x := by
  unfold Memory.consByte; split
  · rfl
  · simp [Memory.byteAt, Ne.symm h]

/-- An address below every listed one reads as an unlisted byte. -/
theorem Memory.byteAt_of_lt {m : Memory} {x : Nat} (h : ∀ c ∈ m, x < c.1) :
    m.byteAt x = Config.unlistedByte := by
  induction m with
  | nil => rfl
  | cons c rest ih =>
    have hc := h c (by simp)
    simp only [Memory.byteAt]
    rw [if_neg (by omega), ih (fun d hd => h d (by simp [hd]))]

theorem Memory.byteAt_setByte_ne (m : Memory) (a x : Nat) (v : Byte) (h : x ≠ a) :
    (m.setByte a v).byteAt x = m.byteAt x := by
  induction m with
  | nil => exact Memory.byteAt_consByte a x v [] h
  | cons c rest ih =>
    obtain ⟨k, b⟩ := c
    simp only [Memory.setByte]
    split
    · exact Memory.byteAt_consByte a x v _ h
    · split
      · next hk => subst hk; rw [Memory.byteAt_consByte _ _ _ _ h]; simp [Memory.byteAt, Ne.symm h]
      · simp [Memory.byteAt, ih]

theorem Memory.byteAt_consByte_self (a : Nat) (v : Byte) (m : Memory) (h : ∀ c ∈ m, a < c.1) :
    (Memory.consByte a v m).byteAt a = v := by
  unfold Memory.consByte; split
  · next hv => rw [Memory.byteAt_of_lt h, hv]
  · simp [Memory.byteAt]

theorem Memory.byteAt_setByte_self (m : Memory) (a : Nat) (v : Byte) (hm : m.wf) :
    (m.setByte a v).byteAt a = v := by
  induction m with
  | nil => exact Memory.byteAt_consByte_self a v [] (by simp)
  | cons c rest ih =>
    obtain ⟨k, b⟩ := c
    obtain ⟨hp, hall⟩ := hm
    rw [List.pairwise_cons] at hp
    have hrest : Memory.wf rest := ⟨hp.2, fun d hd => hall d (by simp [hd])⟩
    simp only [Memory.setByte]
    split
    · next hlt =>
      refine Memory.byteAt_consByte_self a v _ ?_
      intro d hd
      rcases List.mem_cons.mp hd with rfl | hd
      · exact hlt
      · exact Nat.lt_trans hlt (hp.1 d hd)
    · split
      · next hk => subst hk; exact Memory.byteAt_consByte_self a v _ (fun d hd => hp.1 d hd)
      · next hk => simp [Memory.byteAt, Ne.symm hk, ih hrest]

/-- Reading a byte after a byte store. -/
theorem Memory.byteAt_setByte (m : Memory) (a x : Nat) (v : Byte) (hm : m.wf) :
    (m.setByte a v).byteAt x = if x = a then v else m.byteAt x := by
  split
  · next h => subst h; exact Memory.byteAt_setByte_self m x v hm
  · next h => exact Memory.byteAt_setByte_ne m a x v h

/-! ## The canonical form -/

theorem Memory.wf_nil : Memory.wf [] := by simp [Memory.wf]

theorem Memory.wf_tail {c : Host.Cell} {m : Memory} (h : Memory.wf (c :: m)) : m.wf := by
  obtain ⟨hp, hall⟩ := h
  exact ⟨(List.pairwise_cons.mp hp).2, fun d hd => hall d (by simp [hd])⟩

theorem Memory.wf_consByte {a : Nat} {v : Byte} {m : Memory} (hm : m.wf) (ha : a < 2 ^ 32)
    (h : ∀ c ∈ m, a < c.1) : (Memory.consByte a v m).wf := by
  unfold Memory.consByte; split
  · exact hm
  · next hv =>
    refine ⟨List.pairwise_cons.mpr ⟨h, hm.1⟩, ?_⟩
    intro c hc
    rcases List.mem_cons.mp hc with rfl | hc
    · exact ⟨ha, hv⟩
    · exact hm.2 c hc

theorem Memory.mem_consByte {a : Nat} {v : Byte} {m : Memory} {c : Host.Cell}
    (h : c ∈ Memory.consByte a v m) : c.1 = a ∨ c ∈ m := by
  unfold Memory.consByte at h; split at h
  · exact .inr h
  · rcases List.mem_cons.mp h with rfl | h
    · exact .inl rfl
    · exact .inr h

theorem Memory.mem_setByte {m : Memory} {a : Nat} {v : Byte} {c : Host.Cell}
    (h : c ∈ m.setByte a v) : c.1 = a ∨ c ∈ m := by
  induction m with
  | nil => exact Memory.mem_consByte h
  | cons d rest ih =>
    obtain ⟨k, b⟩ := d
    simp only [Memory.setByte] at h
    split at h
    · exact Memory.mem_consByte h
    · split at h
      · exact (Memory.mem_consByte h).imp_right (fun h => by simp [h])
      · rcases List.mem_cons.mp h with rfl | h
        · exact .inr (by simp)
        · exact (ih h).imp_right (fun h => by simp [h])

/-- A byte store keeps the canonical form. -/
theorem Memory.wf_setByte {m : Memory} (hm : m.wf) {a : Nat} (ha : a < 2 ^ 32) (v : Byte) :
    (m.setByte a v).wf := by
  induction m with
  | nil => exact Memory.wf_consByte Memory.wf_nil ha (by simp)
  | cons c rest ih =>
    obtain ⟨k, b⟩ := c
    have hrest : Memory.wf rest := Memory.wf_tail hm
    have hlow := (List.pairwise_cons.mp hm.1).1
    simp only [Memory.setByte]
    split
    · next hlt =>
      refine Memory.wf_consByte hm ha ?_
      intro d hd
      rcases List.mem_cons.mp hd with rfl | hd
      · exact hlt
      · exact Nat.lt_trans hlt (hlow d hd)
    · next hge =>
      split
      · next hk => subst hk; exact Memory.wf_consByte hrest ha (fun d hd => hlow d hd)
      · next hne =>
        have hs := ih hrest
        refine ⟨List.pairwise_cons.mpr ⟨?_, hs.1⟩, ?_⟩
        · intro d hd
          rcases Memory.mem_setByte hd with h | h
          · show k < d.1
            omega
          · exact hlow d h
        · intro d hd
          rcases List.mem_cons.mp hd with rfl | hd
          · exact hm.2 _ (by simp)
          · exact hs.2 d hd

/-- A store of any bytes keeps the canonical form. -/
theorem Memory.wf_writeBytes {m : Memory} (hm : m.wf) (addr : Word) (bs : List Byte) :
    (m.writeBytes addr bs).wf := by
  induction bs generalizing m addr with
  | nil => exact hm
  | cons b rest ih => exact ih (Memory.wf_setByte hm addr.isLt b) _

/-- Canonical memories that read alike everywhere are equal data. -/
theorem Memory.ext_of_wf {m n : Memory} (hm : m.wf) (hn : n.wf) (h : ∀ a, m.byteAt a = n.byteAt a) : m = n := by
  induction m generalizing n with
  | nil =>
    cases n with
    | nil => rfl
    | cons d rest =>
      exact absurd (by have := h d.1; simpa [Memory.byteAt] using this.symm) (hn.2 d (by simp)).2
  | cons c m' ih =>
    cases n with
    | nil => exact absurd (by have := h c.1; simpa [Memory.byteAt] using this) (hm.2 c (by simp)).2
    | cons d n' =>
      have hmlow := (List.pairwise_cons.mp hm.1).1
      have hnlow := (List.pairwise_cons.mp hn.1).1
      have key : c.1 = d.1 := by
        rcases Nat.lt_trichotomy c.1 d.1 with hlt | heq | hgt
        · have h1 := h c.1
          have h2 : Memory.byteAt (d :: n') c.1 = Config.unlistedByte := by
            refine Memory.byteAt_of_lt ?_
            intro e he
            rcases List.mem_cons.mp he with rfl | he
            · exact hlt
            · exact Nat.lt_trans hlt (hnlow e he)
          rw [h2] at h1
          exact absurd (by simpa [Memory.byteAt] using h1) (hm.2 c (by simp)).2
        · exact heq
        · have h1 := h d.1
          have h2 : Memory.byteAt (c :: m') d.1 = Config.unlistedByte := by
            refine Memory.byteAt_of_lt ?_
            intro e he
            rcases List.mem_cons.mp he with rfl | he
            · exact hgt
            · exact Nat.lt_trans hgt (hmlow e he)
          rw [h2] at h1
          exact absurd (by simpa [Memory.byteAt] using h1.symm) (hn.2 d (by simp)).2
      have hval : c.2 = d.2 := by
        have := h c.1
        simpa [Memory.byteAt, key] using this
      have hcd : c = d := Prod.ext key hval
      subst hcd
      congr 1
      refine ih (Memory.wf_tail hm) (Memory.wf_tail hn) (fun a => ?_)
      by_cases ha : c.1 = a
      · subst ha
        rw [Memory.byteAt_of_lt hmlow, Memory.byteAt_of_lt hnlow]
      · have := h a
        simpa [Memory.byteAt, ha] using this

/-! ## Bytes in a row -/

@[simp] theorem Memory.readBytes_length (m : Memory) (addr : Word) (n : Nat) :
    (m.readBytes addr n).length = n := by
  induction n generalizing addr with
  | zero => rfl
  | succ n ih => simp [Memory.readBytes, ih]

@[simp] theorem toBytesLE_length (n v : Nat) : (toBytesLE n v).length = n := by
  induction n generalizing v with
  | zero => rfl
  | succ n ih => simp [toBytesLE, ih]

/-- A number is its little-endian bytes. -/
theorem ofBytesLE_toBytesLE (n v : Nat) : ofBytesLE (toBytesLE n v) = v % 2 ^ (8 * n) := by
  induction n generalizing v with
  | zero => simp [toBytesLE, ofBytesLE, Nat.mod_one]
  | succ n ih =>
    have h : 2 ^ (8 * (n + 1)) = 256 * 2 ^ (8 * n) := by rw [Nat.mul_add, Nat.pow_add]; omega
    simp only [toBytesLE, ofBytesLE, ih, BitVec.toNat_ofNat, h]
    rw [Nat.mod_mul]

/-- Little-endian bytes give their number back. -/
theorem toBytesLE_ofBytesLE (bs : List Byte) : toBytesLE bs.length (ofBytesLE bs) = bs := by
  induction bs with
  | nil => rfl
  | cons b rest ih =>
    have hb := b.isLt
    have h1 : (b.toNat + 256 * ofBytesLE rest) / 256 = ofBytesLE rest := by omega
    have h2 : BitVec.ofNat 8 (b.toNat + 256 * ofBytesLE rest) = b := by
      apply BitVec.eq_of_toNat_eq; simp; omega
    simp only [ofBytesLE, List.length_cons, toBytesLE, h1, h2, ih]

theorem ofBytesLE_lt (bs : List Byte) : ofBytesLE bs < 2 ^ (8 * bs.length) := by
  induction bs with
  | nil => simp [ofBytesLE]
  | cons b rest ih =>
    have hb := b.isLt
    have h : 2 ^ (8 * (rest.length + 1)) = 256 * 2 ^ (8 * rest.length) := by
      rw [Nat.mul_add, Nat.pow_add]; omega
    simp only [ofBytesLE, List.length_cons, h]
    omega

/-- Reading a byte after bytes were stored from `addr` up: the stored byte at offset `x - addr` modulo
2^32 if there is one, else what was there. -/
theorem Memory.byteAt_writeBytes {m : Memory} (hm : m.wf) (addr : Word) (bs : List Byte)
    (hlen : bs.length < 2 ^ 32) (x : Nat) :
    (m.writeBytes addr bs).byteAt x =
      if x < 2 ^ 32 ∧ (BitVec.ofNat 32 x - addr).toNat < bs.length then
        bs.getD (BitVec.ofNat 32 x - addr).toNat 0#8
      else m.byteAt x := by
  induction bs generalizing m addr with
  | nil => simp [Memory.writeBytes]
  | cons b rest ih =>
    have hlen' : rest.length + 1 < 2 ^ 32 := by simpa using hlen
    simp only [Memory.writeBytes]
    rw [ih (Memory.wf_setByte hm addr.isLt b) _ (by omega), Memory.byteAt_setByte _ _ _ _ hm]
    have ha := addr.isLt
    by_cases hx : x < 2 ^ 32
    · have hsub : (BitVec.ofNat 32 x - addr).toNat = (2 ^ 32 - addr.toNat + x) % 2 ^ 32 := by
        rw [BitVec.toNat_sub, BitVec.toNat_ofNat, Nat.mod_eq_of_lt hx]
      have hsub' : (BitVec.ofNat 32 x - (addr + 1#32)).toNat =
          (2 ^ 32 - (addr.toNat + 1) % 2 ^ 32 + x) % 2 ^ 32 := by
        rw [BitVec.toNat_sub, BitVec.toNat_ofNat, Nat.mod_eq_of_lt hx, BitVec.toNat_add]; rfl
      by_cases hxa : x = addr.toNat
      · have e0 : (BitVec.ofNat 32 x - addr).toNat = 0 := by rw [hsub]; omega
        have e1 : ¬ (BitVec.ofNat 32 x - (addr + 1#32)).toNat < rest.length := by rw [hsub']; omega
        rw [if_neg (fun h => e1 h.2), if_pos hxa, e0, if_pos ⟨hx, by simp⟩]
        rfl
      · have e2 : (BitVec.ofNat 32 x - addr).toNat = (BitVec.ofNat 32 x - (addr + 1#32)).toNat + 1 := by
          rw [hsub, hsub']; omega
        rw [e2]
        simp only [hx, true_and, List.length_cons, Nat.add_lt_add_iff_right, List.getD_cons_succ, if_neg hxa]
    · simp only [hx, false_and, if_false]
      rw [if_neg (by omega)]

/-- A store leaves every byte outside its own alone, whatever the form of the memory. -/
theorem Memory.byteAt_writeBytes_outside (m : Memory) (addr : Word) (bs : List Byte) (hlen : bs.length < 2 ^ 32)
    {x : Nat} (h : ¬ (x < 2 ^ 32 ∧ (BitVec.ofNat 32 x - addr).toNat < bs.length)) :
    (m.writeBytes addr bs).byteAt x = m.byteAt x := by
  induction bs generalizing m addr with
  | nil => rfl
  | cons b rest ih =>
    simp only [List.length_cons] at h hlen
    have ha := addr.isLt
    simp only [Memory.writeBytes]
    rw [ih _ _ (by omega), Memory.byteAt_setByte_ne]
    · rintro rfl
      exact h ⟨ha, by simp⟩
    · rintro ⟨h1, h2⟩
      refine h ⟨h1, ?_⟩
      rw [BitVec.toNat_sub, BitVec.toNat_ofNat, Nat.mod_eq_of_lt h1] at h2 ⊢
      rw [BitVec.toNat_add] at h2
      simp only [BitVec.toNat_ofNat] at h2
      omega

/-- What was stored is read back. -/
theorem Memory.readBytes_eq (m : Memory) (addr : Word) (bs : List Byte)
    (h : ∀ k < bs.length, m.byteAt (addr + BitVec.ofNat 32 k).toNat = bs.getD k 0#8) :
    m.readBytes addr bs.length = bs := by
  induction bs generalizing addr with
  | nil => rfl
  | cons b rest ih =>
    simp only [List.length_cons, Memory.readBytes]
    have h0 := h 0 (by simp)
    simp only [BitVec.add_zero, List.getD_cons_zero] at h0
    rw [h0, ih]
    intro k hk
    have := h (k + 1) (by simpa using hk)
    rw [List.getD_cons_succ] at this
    rw [← this, BitVec.add_assoc]
    congr 3
    rw [← BitVec.ofNat_add, Nat.add_comm]

theorem Memory.readBytes_writeBytes {m : Memory} (hm : m.wf) (addr : Word) (bs : List Byte)
    (hlen : bs.length < 2 ^ 32) : (m.writeBytes addr bs).readBytes addr bs.length = bs := by
  refine Memory.readBytes_eq _ _ _ (fun k hk => ?_)
  have hk' : k < 2 ^ 32 := Nat.lt_trans hk hlen
  have e : (BitVec.ofNat 32 (addr + BitVec.ofNat 32 k).toNat - addr).toNat = k := by
    rw [BitVec.ofNat_toNat, BitVec.setWidth_eq, BitVec.add_comm, BitVec.add_sub_cancel, BitVec.toNat_ofNat,
      Nat.mod_eq_of_lt hk']
  rw [Memory.byteAt_writeBytes hm addr bs hlen, e, if_pos ⟨BitVec.isLt _, hk⟩]

end Sys2Proof.Machine
end

