-- ==== Sys2Proof/Laws/State.lean ====
section
/-!
SUPPORT. The field lemmas of State: for each update, what each field is afterwards; and what reading a
register gives after each update. Later proofs cite these and unfold no record update.
-/

namespace Sys2Proof.Machine

/-! ## writeReg -/

@[simp] theorem State.writeReg_pc (s : State) (r : Reg) (v : Word) : (s.writeReg r v).pc = s.pc := by
  unfold State.writeReg; split <;> rfl
@[simp] theorem State.writeReg_snpc (s : State) (r : Reg) (v : Word) : (s.writeReg r v).snpc = s.snpc := by
  unfold State.writeReg; split <;> rfl
@[simp] theorem State.writeReg_dnpc (s : State) (r : Reg) (v : Word) : (s.writeReg r v).dnpc = s.dnpc := by
  unfold State.writeReg; split <;> rfl
@[simp] theorem State.writeReg_status (s : State) (r : Reg) (v : Word) :
    (s.writeReg r v).status = s.status := by
  unfold State.writeReg; split <;> rfl
@[simp] theorem State.writeReg_mem (s : State) (r : Reg) (v : Word) : (s.writeReg r v).mem = s.mem := by
  unfold State.writeReg; split <;> rfl
@[simp] theorem State.writeReg_params (s : State) (r : Reg) (v : Word) :
    (s.writeReg r v).params = s.params := by
  unfold State.writeReg; split <;> rfl
@[simp] theorem State.writeReg_freeCount (s : State) (r : Reg) (v : Word) :
    (s.writeReg r v).freeCount = s.freeCount := by
  unfold State.writeReg; split <;> rfl

/-- Reading after a write: the value written if the index is the one written and not 0. -/
theorem State.readReg_writeReg (s : State) (rd r : Reg) (v : Word) :
    (s.writeReg rd v).readReg r = if r = rd ∧ r ≠ 0 then v else s.readReg r := by
  unfold State.writeReg State.readReg
  by_cases h0 : rd = 0
  · subst h0
    by_cases hr : r = 0 <;> simp [hr]
  · by_cases hr : r = rd
    · subst hr; simp [h0]
    · have hne : (rd : Nat) ≠ (r : Nat) := fun h => hr (Fin.ext h.symm)
      simp [h0, hr, Vector.getElem_set_ne _ _ hne]

@[simp] theorem State.readReg_writeReg_zero (s : State) (rd : Reg) (v : Word) :
    (s.writeReg rd v).readReg 0 = s.readReg 0 := by
  simp [State.readReg_writeReg]

/-! ## setDnpc -/

@[simp] theorem State.setDnpc_pc (s : State) (a : Word) : (s.setDnpc a).pc = s.pc := rfl
@[simp] theorem State.setDnpc_snpc (s : State) (a : Word) : (s.setDnpc a).snpc = s.snpc := rfl
@[simp] theorem State.setDnpc_dnpc (s : State) (a : Word) : (s.setDnpc a).dnpc = a := rfl
@[simp] theorem State.setDnpc_status (s : State) (a : Word) : (s.setDnpc a).status = s.status := rfl
@[simp] theorem State.setDnpc_mem (s : State) (a : Word) : (s.setDnpc a).mem = s.mem := rfl
@[simp] theorem State.setDnpc_params (s : State) (a : Word) : (s.setDnpc a).params = s.params := rfl
@[simp] theorem State.setDnpc_freeCount (s : State) (a : Word) : (s.setDnpc a).freeCount = s.freeCount := rfl
@[simp] theorem State.readReg_setDnpc (s : State) (a : Word) (r : Reg) :
    (s.setDnpc a).readReg r = s.readReg r := rfl

/-! ## raise -/

@[simp] theorem State.raise_pc (s : State) (c : Condition) : (s.raise c).pc = s.pc := rfl
@[simp] theorem State.raise_snpc (s : State) (c : Condition) : (s.raise c).snpc = s.snpc := rfl
@[simp] theorem State.raise_dnpc (s : State) (c : Condition) : (s.raise c).dnpc = s.dnpc := rfl
@[simp] theorem State.raise_status (s : State) (c : Condition) : (s.raise c).status = .terminated c := rfl
@[simp] theorem State.raise_mem (s : State) (c : Condition) : (s.raise c).mem = s.mem := rfl
@[simp] theorem State.raise_params (s : State) (c : Condition) : (s.raise c).params = s.params := rfl
@[simp] theorem State.raise_freeCount (s : State) (c : Condition) : (s.raise c).freeCount = s.freeCount := rfl
@[simp] theorem State.readReg_raise (s : State) (c : Condition) (r : Reg) :
    (s.raise c).readReg r = s.readReg r := rfl

/-! ## releasePcs -/

@[simp] theorem State.releasePcs_status (s : State) : s.releasePcs.status = s.status := rfl
@[simp] theorem State.releasePcs_mem (s : State) : s.releasePcs.mem = s.mem := rfl
@[simp] theorem State.releasePcs_params (s : State) : s.releasePcs.params = s.params := rfl
@[simp] theorem State.readReg_releasePcs (s : State) (r : Reg) : s.releasePcs.readReg r = s.readReg r := rfl

/-! ## forceZero -/

@[simp] theorem State.forceZero_pc (s : State) : s.forceZero.pc = s.pc := rfl
@[simp] theorem State.forceZero_snpc (s : State) : s.forceZero.snpc = s.snpc := rfl
@[simp] theorem State.forceZero_dnpc (s : State) : s.forceZero.dnpc = s.dnpc := rfl
@[simp] theorem State.forceZero_status (s : State) : s.forceZero.status = s.status := rfl
@[simp] theorem State.forceZero_mem (s : State) : s.forceZero.mem = s.mem := rfl
@[simp] theorem State.forceZero_params (s : State) : s.forceZero.params = s.params := rfl
@[simp] theorem State.forceZero_freeCount (s : State) : s.forceZero.freeCount = s.freeCount := rfl

/-- Register 0 reads zero after the force; every other register reads as before. -/
theorem State.readReg_forceZero (s : State) (r : Reg) :
    s.forceZero.readReg r = if r = 0 then 0#32 else s.readReg r := by
  unfold State.forceZero State.readReg
  by_cases hr : r = 0
  · subst hr; simp
  · have hne : (0 : Nat) ≠ (r : Nat) := fun h => hr (Fin.ext h.symm)
    simp [hr, Vector.getElem_set_ne _ _ hne]

@[simp] theorem State.readReg_forceZero_zero (s : State) : s.forceZero.readReg 0 = 0#32 := by
  simp [State.readReg_forceZero]

/-! ## setCursor and defaultDnpc -/

@[simp] theorem State.setCursor_pc (s : State) : s.setCursor.pc = s.pc := rfl
@[simp] theorem State.setCursor_snpc (s : State) : s.setCursor.snpc = s.pc := rfl
@[simp] theorem State.setCursor_dnpc (s : State) : s.setCursor.dnpc = s.dnpc := rfl
@[simp] theorem State.setCursor_status (s : State) : s.setCursor.status = s.status := rfl
@[simp] theorem State.setCursor_mem (s : State) : s.setCursor.mem = s.mem := rfl
@[simp] theorem State.setCursor_params (s : State) : s.setCursor.params = s.params := rfl
@[simp] theorem State.setCursor_freeCount (s : State) : s.setCursor.freeCount = s.freeCount := rfl
@[simp] theorem State.readReg_setCursor (s : State) (r : Reg) : s.setCursor.readReg r = s.readReg r := rfl

@[simp] theorem State.defaultDnpc_pc (s : State) : s.defaultDnpc.pc = s.pc := rfl
@[simp] theorem State.defaultDnpc_snpc (s : State) : s.defaultDnpc.snpc = s.snpc := rfl
@[simp] theorem State.defaultDnpc_dnpc (s : State) : s.defaultDnpc.dnpc = s.snpc := rfl
@[simp] theorem State.defaultDnpc_status (s : State) : s.defaultDnpc.status = s.status := rfl
@[simp] theorem State.defaultDnpc_mem (s : State) : s.defaultDnpc.mem = s.mem := rfl
@[simp] theorem State.defaultDnpc_params (s : State) : s.defaultDnpc.params = s.params := rfl
@[simp] theorem State.defaultDnpc_freeCount (s : State) : s.defaultDnpc.freeCount = s.freeCount := rfl
@[simp] theorem State.readReg_defaultDnpc (s : State) (r : Reg) :
    s.defaultDnpc.readReg r = s.readReg r := rfl

/-! ## finishStep and commit -/

@[simp] theorem State.finishStep_pc (s : State) : s.finishStep.pc = s.pc := by
  unfold State.finishStep; split <;> rfl
@[simp] theorem State.finishStep_snpc (s : State) : s.finishStep.snpc = s.snpc := by
  unfold State.finishStep; split <;> rfl
@[simp] theorem State.finishStep_dnpc (s : State) : s.finishStep.dnpc = s.dnpc := by
  unfold State.finishStep; split <;> rfl
@[simp] theorem State.finishStep_status (s : State) : s.finishStep.status = s.status := by
  unfold State.finishStep; split <;> rfl
@[simp] theorem State.finishStep_mem (s : State) : s.finishStep.mem = s.mem := by
  unfold State.finishStep; split <;> rfl
@[simp] theorem State.finishStep_params (s : State) : s.finishStep.params = s.params := by
  unfold State.finishStep; split <;> rfl
@[simp] theorem State.finishStep_freeCount (s : State) : s.finishStep.freeCount = s.freeCount := by
  unfold State.finishStep; split <;> rfl

/-- Steps 5 and 6 change at most register 0. -/
theorem State.readReg_finishStep (s : State) (r : Reg) :
    s.finishStep.readReg r = if s.reachesStep5 ∧ r = 0 then 0#32 else s.readReg r := by
  unfold State.finishStep
  by_cases h : s.reachesStep5 = true <;> simp [h, State.readReg_forceZero]

@[simp] theorem State.commit_status (s : State) : s.commit.status = s.status := by
  unfold State.commit; split <;> simp_all
@[simp] theorem State.commit_mem (s : State) : s.commit.mem = s.mem := by
  unfold State.commit; split <;> rfl
@[simp] theorem State.commit_params (s : State) : s.commit.params = s.params := by
  unfold State.commit; split <;> rfl
@[simp] theorem State.readReg_commit (s : State) (r : Reg) : s.commit.readReg r = s.readReg r := by
  unfold State.commit; split <;> rfl

/-- Continue commits `dnpc`. -/
theorem State.commit_running (s : State) (h : s.status = .running) : s.commit = { s with pc := s.dnpc } := by
  simp [State.commit, h]

/-- A terminal condition leaves the program counters unspecified. -/
theorem State.commit_terminated (s : State) (c : Condition) (h : s.status = .terminated c) :
    s.commit = s.releasePcs := by
  simp [State.commit, h]

/-! ## Reset -/

@[simp] theorem State.readReg_resetWith_zero (p : Params) (xs : Vector Word 31) (m : Memory) (n : Nat) :
    (State.resetWith p xs m n).readReg 0 = 0#32 := by
  simp [State.resetWith, State.readReg]

@[simp] theorem State.readReg_resetWith_succ (p : Params) (xs : Vector Word 31) (m : Memory) (n : Nat)
    (k : Fin 31) : (State.resetWith p xs m n).readReg k.succ = xs[k] := by
  simp only [State.resetWith, State.readReg, Fin.getElem_fin, Vector.getElem_ofFn]
  exact Fin.cases_succ k

@[simp] theorem State.resetWith_pc (p : Params) (xs : Vector Word 31) (m : Memory) (n : Nat) :
    (State.resetWith p xs m n).pc = p.resetPc := rfl
@[simp] theorem State.resetWith_status (p : Params) (xs : Vector Word 31) (m : Memory) (n : Nat) :
    (State.resetWith p xs m n).status = .running := rfl
@[simp] theorem State.resetWith_mem (p : Params) (xs : Vector Word 31) (m : Memory) (n : Nat) :
    (State.resetWith p xs m n).mem = m := rfl
@[simp] theorem State.resetWith_params (p : Params) (xs : Vector Word 31) (m : Memory) (n : Nat) :
    (State.resetWith p xs m n).params = p := rfl
@[simp] theorem State.resetWith_freeCount (p : Params) (xs : Vector Word 31) (m : Memory) (n : Nat) :
    (State.resetWith p xs m n).freeCount = n := rfl

/-! ## Outcomes -/

@[simp] theorem mapNext_next (f : State → State) (s : State) :
    mapNext f (.next s) = .next (f s) := rfl

end Sys2Proof.Machine
end

