-- ==== Sys2Proof/Laws/Ops.lean ====
section
/-!
SUPPORT. One lemma per shared operation that says everything it can do: reads, writes, loads, stores and
the fetch, admitted or refused.
-/

namespace Sys2Proof.Machine

theorem State.memRead_admitted (s : State) {a : Word} {n : AccessLen} (h : s.admits .read a n = true) :
    s.memRead a n = .ok (ofBytesLE (s.mem.readBytes a (AccessLen.bytes n))) := by
  simp [State.memRead, State.read, h]

theorem State.memRead_refused (s : State) {a : Word} {n : AccessLen} (h : s.admits .read a n = false) :
    s.memRead a n = .error (.memFault .read a n) := by
  simp [State.memRead, State.read, h]

theorem State.memWrite_admitted (s : State) {a : Word} {n : AccessLen} (v : Nat)
    (h : s.admits .write a n = true) :
    s.memWrite a n v = .ok { s with mem := s.mem.writeBytes a (toBytesLE (AccessLen.bytes n) v) } := by
  simp [State.memWrite, State.write, h]

theorem State.memWrite_refused (s : State) {a : Word} {n : AccessLen} (v : Nat)
    (h : s.admits .write a n = false) : s.memWrite a n v = .error (.memFault .write a n) := by
  simp [State.memWrite, State.write, h]

theorem State.load_of_read (s : State) (rd : Reg) {a : Word} {n : AccessLen} {v : Nat} (f : Nat → Word)
    (h : s.memRead a n = .ok v) : s.load rd a n f = s.writeReg rd (f v) := by
  simp [State.load, h]

theorem State.load_refused (s : State) (rd : Reg) {a : Word} {n : AccessLen} (f : Nat → Word)
    (h : s.admits .read a n = false) : s.load rd a n f = s.raise (.memFault .read a n) := by
  simp [State.load, State.memRead_refused s h]

theorem State.store_admitted (s : State) {a : Word} {n : AccessLen} (v : Nat)
    (h : s.admits .write a n = true) :
    s.store a n v = { s with mem := s.mem.writeBytes a (toBytesLE (AccessLen.bytes n) v) } := by
  simp [State.store, State.memWrite_admitted s v h]

theorem State.store_refused (s : State) {a : Word} {n : AccessLen} (v : Nat)
    (h : s.admits .write a n = false) : s.store a n v = s.raise (.memFault .write a n) := by
  simp [State.store, State.memWrite_refused s v h]

/-- A load either writes its destination with what it read, or is refused and only raises. -/
theorem State.load_cases (s : State) (rd : Reg) (a : Word) (n : AccessLen) (f : Nat → Word) :
    (s.admits .read a n = true ∧
      s.load rd a n f = s.writeReg rd (f (ofBytesLE (s.mem.readBytes a (AccessLen.bytes n))))) ∨
    (s.admits .read a n = false ∧ s.load rd a n f = s.raise (.memFault .read a n)) := by
  cases h : s.admits .read a n with
  | true => exact .inl ⟨rfl, State.load_of_read s rd f (State.memRead_admitted s h)⟩
  | false => exact .inr ⟨rfl, State.load_refused s rd f h⟩

/-- A store either stores its bytes, or is refused and only raises. -/
theorem State.store_cases (s : State) (a : Word) (n : AccessLen) (v : Nat) :
    (s.admits .write a n = true ∧
      s.store a n v = { s with mem := s.mem.writeBytes a (toBytesLE (AccessLen.bytes n) v) }) ∨
    (s.admits .write a n = false ∧ s.store a n v = s.raise (.memFault .write a n)) := by
  cases h : s.admits .write a n with
  | true => exact .inl ⟨rfl, State.store_admitted s v h⟩
  | false => exact .inr ⟨rfl, State.store_refused s v h⟩

/-- The fetched word. -/
def State.fetchedWord (s : State) : Word := BitVec.ofNat 32 (ofBytesLE (s.mem.readBytes s.snpc 4))

theorem State.fetch_admitted (s : State) (h : s.admits .fetch s.snpc .four = true) :
    s.fetch = .ok (s.fetchedWord, { s with snpc := s.snpc + 4#32 }) := by
  simp [State.fetch, State.read, h, State.fetchedWord, AccessLen.bytes, nextPc]

theorem State.fetch_refused (s : State) (h : s.admits .fetch s.snpc .four = false) :
    s.fetch = .error (.memFault .fetch s.snpc .four) := by
  simp [State.fetch, State.read, h]

/-- Admission depends on the parameters alone. -/
theorem State.admits_congr {s t : State} (h : s.params = t.params) (kind : AccessKind) (a : Word)
    (n : AccessLen) : s.admits kind a n = t.admits kind a n := by
  simp [State.admits, h]

end Sys2Proof.Machine
end

