-- ==== Sys2Proof/Laws/Exec.lean ====
section
/-!
SUPPORT. What one action can do, said once (`exec_cases`), and the shapes of effect that the statements
about single instructions use.
-/

namespace Sys2Proof.Machine

/-! ## Effects -/

theorem writes_holds (s : State) (rd : Reg) (v : Word) : (writes rd v).Holds s (s.writeReg rd v) where
  regs r := by simp [writes, Effect.regAfter, State.readReg_writeReg]
  pc := by simp
  snpc := by simp
  dnpc := by simp [writes]
  status := by simp [writes, Effect.statusAfter]
  bytes a := by simp [writes, Effect.byteAfter]
  params := by simp
  freeCount := by simp

theorem raises_holds (s : State) (c : Condition) : (raises c).Holds s (s.raise c) where
  regs _ := rfl
  pc := rfl
  snpc := rfl
  dnpc := rfl
  status := rfl
  bytes _ := rfl
  params := rfl
  freeCount := rfl

theorem jumps_some_holds (s : State) (a : Word) : (jumps (some a)).Holds s (s.setDnpc a) where
  regs _ := rfl
  pc := rfl
  snpc := rfl
  dnpc := rfl
  status := rfl
  bytes _ := rfl
  params := rfl
  freeCount := rfl

theorem jumps_none_holds (s : State) : (jumps none).Holds s s where
  regs _ := rfl
  pc := rfl
  snpc := rfl
  dnpc := rfl
  status := rfl
  bytes _ := rfl
  params := rfl
  freeCount := rfl

theorem stores_holds (s : State) (hm : s.mem.wf) (addr : Word) (bs : List Byte) (hlen : bs.length < 2 ^ 32) :
    (stores addr bs).Holds s { s with mem := s.mem.writeBytes addr bs } where
  regs _ := rfl
  pc := rfl
  snpc := rfl
  dnpc := rfl
  status := rfl
  bytes a := by
    simp only [stores, Effect.byteAfter]
    exact Memory.byteAt_writeBytes hm addr bs hlen a
  params := rfl
  freeCount := rfl

/-- An action whose answer is a register write has that effect. -/
theorem does_of_writeReg {i : Instr} {s : State} {rd : Reg} {v : Word} (h : exec i s = .next (s.writeReg rd v)) :
    Does i s (writes rd v) :=
  ⟨_, h, writes_holds s rd v⟩

/-- An action whose answer is a raised condition has that effect. -/
theorem does_of_raise {i : Instr} {s : State} {c : Condition} (h : exec i s = .next (s.raise c)) :
    Does i s (raises c) :=
  ⟨_, h, raises_holds s c⟩

/-! ## What an action can do -/

/-- The forms an action's next state can take: one register write; a register write with an override of
`dnpc`; an override alone; nothing (a branch not taken); a store; a raised condition. -/
inductive ActionAnswer (i : Instr) (s : State) : State → Prop where
  | register (rd : Reg) (v : Word) (hd : destination i = some rd) (ht : isTransfer i = false)
      (hx : dataAccess i = none ∨ ∃ n, dataAccess i = some (.read, n)) :
      ActionAnswer i s (s.writeReg rd v)
  | link (rd : Reg) (v a : Word) (hd : destination i = some rd) (ht : isTransfer i = true)
      (hx : dataAccess i = none) : ActionAnswer i s ((s.writeReg rd v).setDnpc a)
  | jump (a : Word) (hd : destination i = none) (ht : isTransfer i = true) (hx : dataAccess i = none) :
      ActionAnswer i s (s.setDnpc a)
  | fall (hd : destination i = none) (ht : isTransfer i = true) (hx : dataAccess i = none) : ActionAnswer i s s
  | stored (a : Word) (n : AccessLen) (v : Nat) (hd : destination i = none) (ht : isTransfer i = false)
      (hx : dataAccess i = some (.write, n)) (hadr : a = effectiveAddr (s.operandsOf i)) :
      ActionAnswer i s { s with mem := s.mem.writeBytes a (toBytesLE (AccessLen.bytes n) v) }
  | refused (kind : AccessKind) (a : Word) (n : AccessLen) (ht : isTransfer i = false)
      (hx : dataAccess i = some (kind, n)) (hadr : a = effectiveAddr (s.operandsOf i))
      (ha : s.admits kind a n = false) :
      ActionAnswer i s (s.raise (.memFault kind a n))
  | trap (hi : i = .nemuTrap) : ActionAnswer i s (s.raise (.ended s.pc (s.readReg Config.retReg)))
  | invalid (w : Word) (hi : i = .inv w) : ActionAnswer i s (s.raise (.invalid s.pc))

theorem answer_of_load {i : Instr} {s : State} {rd : Reg} {n : AccessLen} (a : Word) (f : Nat → Word)
    (hd : destination i = some rd) (ht : isTransfer i = false) (hx : dataAccess i = some (.read, n))
    (hadr : a = effectiveAddr (s.operandsOf i)) : ActionAnswer i s (s.load rd a n f) := by
  rcases State.load_cases s rd a n f with ⟨_, h⟩ | ⟨ha, h⟩ <;> rw [h]
  · exact .register rd _ hd ht (.inr ⟨n, hx⟩)
  · exact .refused .read a n ht hx hadr ha

theorem answer_of_store {i : Instr} {s : State} {n : AccessLen} (a : Word) (v : Nat)
    (hd : destination i = none) (ht : isTransfer i = false) (hx : dataAccess i = some (.write, n))
    (hadr : a = effectiveAddr (s.operandsOf i)) : ActionAnswer i s (s.store a n v) := by
  rcases State.store_cases s a n v with ⟨_, h⟩ | ⟨ha, h⟩ <;> rw [h]
  · exact .stored a n v hd ht hx hadr
  · exact .refused .write a n ht hx hadr ha

theorem answer_of_branch {i : Instr} {s : State} (taken : Bool) (o : Bundle)
    (hd : destination i = none) (ht : isTransfer i = true) (hx : dataAccess i = none) :
    ActionAnswer i s (s.branchIf taken o) := by
  unfold State.branchIf; split
  · exact .jump _ hd ht hx
  · exact .fall hd ht hx

/-- Every action answers a next state, of one of the forms above: none faults, none refuses. -/
theorem exec_cases (i : Instr) (s : State) : ∃ t, exec i s = .next t ∧ ActionAnswer i s t := by
  cases i with
  | beq _ _ _ | bne _ _ _ | blt _ _ _ | bge _ _ _ | bltu _ _ _ | bgeu _ _ _ =>
    exact ⟨_, rfl, answer_of_branch _ _ rfl rfl rfl⟩
  | jal _ _ | jalr _ _ _ => exact ⟨_, rfl, .link _ _ _ rfl rfl rfl⟩
  | lb _ _ _ | lh _ _ _ | lw _ _ _ | lbu _ _ _ | lhu _ _ _ =>
    exact ⟨_, rfl, answer_of_load _ _ rfl rfl rfl rfl⟩
  | sb _ _ _ | sh _ _ _ | sw _ _ _ => exact ⟨_, rfl, answer_of_store _ _ rfl rfl rfl rfl⟩
  | addi _ _ _ | slti _ _ _ | sltiu _ _ _ | xori _ _ _ | ori _ _ _ | andi _ _ _ | slli _ _ _ | srli _ _ _
  | srai _ _ _ => exact ⟨_, rfl, .register _ _ rfl rfl (.inl rfl)⟩
  | add _ _ _ | sub _ _ _ | sll _ _ _ | slt _ _ _ | sltu _ _ _ | xor _ _ _ | srl _ _ _ | sra _ _ _ | or _ _ _
  | and _ _ _ => exact ⟨_, rfl, .register _ _ rfl rfl (.inl rfl)⟩
  | mul _ _ _ | mulh _ _ _ | mulhsu _ _ _ | mulhu _ _ _ | div _ _ _ | divu _ _ _ | rem _ _ _ | remu _ _ _ =>
    exact ⟨_, rfl, .register _ _ rfl rfl (.inl rfl)⟩
  | lui _ _ | auipc _ _ => exact ⟨_, rfl, .register _ _ rfl rfl (.inl rfl)⟩
  | nemuTrap => exact ⟨_, rfl, .trap rfl⟩
  | inv w => exact ⟨_, rfl, .invalid w rfl⟩

/-- The form of a given answer. -/
theorem exec_answer {i : Instr} {s t : State} (h : exec i s = .next t) : ActionAnswer i s t := by
  obtain ⟨u, hu, ha⟩ := exec_cases i s
  rw [hu] at h
  injection h with h
  exact h ▸ ha

/-! ## What a step can do -/

theorem step_of_running {s : State} (hr : s.status = .running) : step s = execOnce s := by
  simp only [step, hr]

/-- A step of a running machine: either the fetch is refused and the step only raises, or the fetched
word's action runs and steps 5 and 6 and the commit follow. -/
theorem step_running (s : State) (hr : s.status = .running) :
    (s.admits .fetch s.pc .four = false ∧
      step s = .next (s.setCursor.raise (.memFault .fetch s.pc .four)).releasePcs) ∨
    (s.admits .fetch s.pc .four = true ∧ ∃ t,
      s.setCursor.fetch = .ok (s.setCursor.fetchedWord, { s with snpc := s.pc + 4#32 }) ∧
      exec (decodeWord s.setCursor.fetchedWord) { s with snpc := s.pc + 4#32, dnpc := s.pc + 4#32 } = .next t ∧
      ActionAnswer (decodeWord s.setCursor.fetchedWord) { s with snpc := s.pc + 4#32, dnpc := s.pc + 4#32 } t ∧
      step s = .next t.finishStep.commit) := by
  have hcur : s.setCursor.admits .fetch s.setCursor.snpc .four = s.admits .fetch s.pc .four :=
    State.admits_congr rfl _ _ _
  cases ha : s.admits .fetch s.pc .four with
  | false =>
    refine .inl ⟨rfl, ?_⟩
    have hf := State.fetch_refused s.setCursor (hcur.trans ha)
    simp only [step_of_running hr, execOnce, decodeStep, hf]
    rfl
  | true =>
    refine .inr ⟨rfl, ?_⟩
    have hf := State.fetch_admitted s.setCursor (hcur.trans ha)
    obtain ⟨t, ht, hans⟩ := exec_cases (decodeWord s.setCursor.fetchedWord)
      { s with snpc := s.pc + 4#32, dnpc := s.pc + 4#32 }
    refine ⟨t, hf, ht, hans, ?_⟩
    have hd : State.defaultDnpc { s.setCursor with snpc := s.setCursor.snpc + 4#32 } =
        { s with snpc := s.pc + 4#32, dnpc := s.pc + 4#32 } := rfl
    simp only [step_of_running hr, execOnce, decodeStep, hf, executeWord, hd, ht, mapNext_next]

/-- A step that answers a next state started from a running machine. -/
theorem running_of_step {s t : State} (h : step s = .next t) : s.status = .running := by
  cases hs : s.status with
  | running => rfl
  | terminated c => simp [step, hs] at h

/-! ## Runs -/

/-- A run of k + 1 steps is a step and a run of k. -/
theorem run_of_step_next {s t : State} (k : Nat) (h : step s = .next t) :
    Sys2Proof.core.run (k + 1) s = Sys2Proof.core.run k t := by
  have h' : Sys2Proof.core.step s = .next t := h
  simp only [Host.Core.run, h']

theorem run_of_step_fault {s : State} {r : Fault} (k : Nat) (h : step s = .fault r) :
    Sys2Proof.core.run (k + 1) s = .fault r := by
  have h' : Sys2Proof.core.step s = .fault r := h
  simp only [Host.Core.run, h']

theorem run_of_step_refused {s : State} {r : Refusal} (k : Nat) (h : step s = .refused r) :
    Sys2Proof.core.run (k + 1) s = .refused r := by
  have h' : Sys2Proof.core.step s = .refused r := h
  simp only [Host.Core.run, h']

end Sys2Proof.Machine
end

