-- ==== Sys2Proof/Laws/Extract.lean ====
section
/-!
SUPPORT. The extractor's numbers as bit vectors, and little-endian bytes as one vector.
-/

namespace Sys2Proof

/-- The field [hi:lo] as a number is the cut bit vector. -/
theorem field_eq (w : Word) (hi lo : Nat) : field w hi lo = (w.extractLsb' lo (hi - lo + 1)).toNat := by
  simp [field, BitVec.extractLsb'_toNat, Nat.shiftRight_eq_div_pow]

/-- Bits above the width are ignored. -/
theorem signExtend_mod (v width : Nat) : signExtend (v % 2 ^ width) width = signExtend v width := by
  simp [signExtend]

/-- `sign_extend` of a field is the sign extension of the bit vector. -/
theorem signExtend_toNat {n : Nat} (h1 : 1 ≤ n) (h2 : n ≤ 32) (v : BitVec n) :
    signExtend v.toNat n = v.signExtend 32 := by
  have hv := v.isLt
  have hp : 2 ^ n = 2 * 2 ^ (n - 1) := by rw [← Nat.pow_succ']; congr 1; omega
  have hle : 2 ^ n ≤ 2 ^ 32 := Nat.pow_le_pow_right (by omega) h2
  apply BitVec.eq_of_toInt_eq
  rw [BitVec.toInt_signExtend_of_le h2]
  simp only [signExtend, Nat.mod_eq_of_lt hv]
  have hpos : 0 < 2 ^ (n - 1) := Nat.pow_pos (by omega)
  have h31 : 2 ^ (n - 1) ≤ 2 ^ 31 := Nat.pow_le_pow_right (by omega) (by omega)
  by_cases h : v.toNat < 2 ^ (n - 1)
  · rw [if_pos (Nat.div_eq_of_lt h), BitVec.toInt_eq_toNat_of_lt (by rw [BitVec.toNat_ofNat]; omega),
      BitVec.toInt_eq_toNat_of_lt (by omega), BitVec.toNat_ofNat]
    omega
  · have hdiv : v.toNat / 2 ^ (n - 1) ≠ 0 := by
      rw [Ne, Nat.div_eq_zero_iff]; omega
    rw [if_neg hdiv, BitVec.toInt_eq_toNat_cond, if_neg (by rw [BitVec.toNat_ofNat]; omega),
      BitVec.toInt_eq_toNat_cond, if_neg (by omega), BitVec.toNat_ofNat]
    clear hdiv
    generalize 2 ^ n = p at *
    generalize 2 ^ (n - 1) = q at *
    omega

/-- Two little-endian bytes are the byte of the higher address over the other. -/
theorem ofBytesLE_two (b0 b1 : Byte) : ofBytesLE [b0, b1] = (b1 ++ b0).toNat := by
  have h0 := b0.isLt
  have h1 := b1.isLt
  rw [BitVec.toNat_append, ← Nat.shiftLeft_add_eq_or_of_lt (by simpa using h0), Nat.shiftLeft_eq]
  simp only [ofBytesLE]
  omega

/-- Four little-endian bytes, the byte of the highest address on top. -/
theorem ofBytesLE_four (b0 b1 b2 b3 : Byte) : ofBytesLE [b0, b1, b2, b3] = (b3 ++ b2 ++ b1 ++ b0).toNat := by
  have h0 := b0.isLt
  have h1 := b1.isLt
  have h2 := b2.isLt
  simp only [BitVec.toNat_append]
  rw [← Nat.shiftLeft_add_eq_or_of_lt (by simpa using h0), ← Nat.shiftLeft_add_eq_or_of_lt (by simpa using h1),
    ← Nat.shiftLeft_add_eq_or_of_lt (by simpa using h2)]
  simp only [Nat.shiftLeft_eq, ofBytesLE]
  omega

end Sys2Proof
end

