-- ==== Sys2Proof/Laws/PerInstr.lean ====
section
/-!
SUPPORT. Statements made per instruction. `EncodeHits`: the word of a well-formed instruction matches the
table entry whose action is the instruction's.
-/

namespace Sys2Proof.Laws

/-- The word of the instruction hits the table entry of the instruction's own action (R67, R101). -/
def EncodeHits.Statement (i : Instr) : Prop :=
  i.wellFormed = true → ∃ e ∈ patternTable, e.action = i.mnemonic ∧ e.hits (encode i) = true

theorem row_mem (k : Nat) (h : k < rows.length) : rows[k] ∈ patternTable :=
  List.mem_append_left _ (List.getElem_mem h)

theorem EncodeHits.beq : ∀ rs1 rs2 off, EncodeHits.Statement (.beq rs1 rs2 off) :=
  fun _ _ _ _ => ⟨rows[0], row_mem 0 (by decide), rfl, hits_of_mask (encodeB_mask ..) rfl⟩

theorem EncodeHits.bne : ∀ rs1 rs2 off, EncodeHits.Statement (.bne rs1 rs2 off) :=
  fun _ _ _ _ => ⟨rows[1], row_mem 1 (by decide), rfl, hits_of_mask (encodeB_mask ..) rfl⟩

theorem EncodeHits.blt : ∀ rs1 rs2 off, EncodeHits.Statement (.blt rs1 rs2 off) :=
  fun _ _ _ _ => ⟨rows[2], row_mem 2 (by decide), rfl, hits_of_mask (encodeB_mask ..) rfl⟩

theorem EncodeHits.bge : ∀ rs1 rs2 off, EncodeHits.Statement (.bge rs1 rs2 off) :=
  fun _ _ _ _ => ⟨rows[3], row_mem 3 (by decide), rfl, hits_of_mask (encodeB_mask ..) rfl⟩

theorem EncodeHits.bltu : ∀ rs1 rs2 off, EncodeHits.Statement (.bltu rs1 rs2 off) :=
  fun _ _ _ _ => ⟨rows[4], row_mem 4 (by decide), rfl, hits_of_mask (encodeB_mask ..) rfl⟩

theorem EncodeHits.bgeu : ∀ rs1 rs2 off, EncodeHits.Statement (.bgeu rs1 rs2 off) :=
  fun _ _ _ _ => ⟨rows[5], row_mem 5 (by decide), rfl, hits_of_mask (encodeB_mask ..) rfl⟩

theorem EncodeHits.jal : ∀ rd off, EncodeHits.Statement (.jal rd off) :=
  fun _ _ _ => ⟨rows[6], row_mem 6 (by decide), rfl, hits_of_mask (encodeJ_mask ..) rfl⟩

theorem EncodeHits.jalr : ∀ rd rs1 imm, EncodeHits.Statement (.jalr rd rs1 imm) :=
  fun _ _ _ _ => ⟨rows[7], row_mem 7 (by decide), rfl, hits_of_mask (encodeI_mask ..) rfl⟩

theorem EncodeHits.lb : ∀ rd rs1 imm, EncodeHits.Statement (.lb rd rs1 imm) :=
  fun _ _ _ _ => ⟨rows[8], row_mem 8 (by decide), rfl, hits_of_mask (encodeI_mask ..) rfl⟩

theorem EncodeHits.lh : ∀ rd rs1 imm, EncodeHits.Statement (.lh rd rs1 imm) :=
  fun _ _ _ _ => ⟨rows[9], row_mem 9 (by decide), rfl, hits_of_mask (encodeI_mask ..) rfl⟩

theorem EncodeHits.lw : ∀ rd rs1 imm, EncodeHits.Statement (.lw rd rs1 imm) :=
  fun _ _ _ _ => ⟨rows[10], row_mem 10 (by decide), rfl, hits_of_mask (encodeI_mask ..) rfl⟩

theorem EncodeHits.lbu : ∀ rd rs1 imm, EncodeHits.Statement (.lbu rd rs1 imm) :=
  fun _ _ _ _ => ⟨rows[11], row_mem 11 (by decide), rfl, hits_of_mask (encodeI_mask ..) rfl⟩

theorem EncodeHits.lhu : ∀ rd rs1 imm, EncodeHits.Statement (.lhu rd rs1 imm) :=
  fun _ _ _ _ => ⟨rows[12], row_mem 12 (by decide), rfl, hits_of_mask (encodeI_mask ..) rfl⟩

theorem EncodeHits.sb : ∀ rs1 rs2 imm, EncodeHits.Statement (.sb rs1 rs2 imm) :=
  fun _ _ _ _ => ⟨rows[13], row_mem 13 (by decide), rfl, hits_of_mask (encodeS_mask ..) rfl⟩

theorem EncodeHits.sh : ∀ rs1 rs2 imm, EncodeHits.Statement (.sh rs1 rs2 imm) :=
  fun _ _ _ _ => ⟨rows[14], row_mem 14 (by decide), rfl, hits_of_mask (encodeS_mask ..) rfl⟩

theorem EncodeHits.sw : ∀ rs1 rs2 imm, EncodeHits.Statement (.sw rs1 rs2 imm) :=
  fun _ _ _ _ => ⟨rows[15], row_mem 15 (by decide), rfl, hits_of_mask (encodeS_mask ..) rfl⟩

theorem EncodeHits.addi : ∀ rd rs1 imm, EncodeHits.Statement (.addi rd rs1 imm) :=
  fun _ _ _ _ => ⟨rows[16], row_mem 16 (by decide), rfl, hits_of_mask (encodeI_mask ..) rfl⟩

theorem EncodeHits.slti : ∀ rd rs1 imm, EncodeHits.Statement (.slti rd rs1 imm) :=
  fun _ _ _ _ => ⟨rows[17], row_mem 17 (by decide), rfl, hits_of_mask (encodeI_mask ..) rfl⟩

theorem EncodeHits.sltiu : ∀ rd rs1 imm, EncodeHits.Statement (.sltiu rd rs1 imm) :=
  fun _ _ _ _ => ⟨rows[18], row_mem 18 (by decide), rfl, hits_of_mask (encodeI_mask ..) rfl⟩

theorem EncodeHits.xori : ∀ rd rs1 imm, EncodeHits.Statement (.xori rd rs1 imm) :=
  fun _ _ _ _ => ⟨rows[19], row_mem 19 (by decide), rfl, hits_of_mask (encodeI_mask ..) rfl⟩

theorem EncodeHits.ori : ∀ rd rs1 imm, EncodeHits.Statement (.ori rd rs1 imm) :=
  fun _ _ _ _ => ⟨rows[20], row_mem 20 (by decide), rfl, hits_of_mask (encodeI_mask ..) rfl⟩

theorem EncodeHits.andi : ∀ rd rs1 imm, EncodeHits.Statement (.andi rd rs1 imm) :=
  fun _ _ _ _ => ⟨rows[21], row_mem 21 (by decide), rfl, hits_of_mask (encodeI_mask ..) rfl⟩

theorem EncodeHits.slli : ∀ rd rs1 shamt, EncodeHits.Statement (.slli rd rs1 shamt) :=
  fun _ _ _ _ => ⟨rows[22], row_mem 22 (by decide), rfl, hits_of_mask (encodeI_shift_mask ..) rfl⟩

theorem EncodeHits.srli : ∀ rd rs1 shamt, EncodeHits.Statement (.srli rd rs1 shamt) :=
  fun _ _ _ _ => ⟨rows[23], row_mem 23 (by decide), rfl, hits_of_mask (encodeI_shift_mask ..) rfl⟩

theorem EncodeHits.srai : ∀ rd rs1 shamt, EncodeHits.Statement (.srai rd rs1 shamt) :=
  fun _ _ _ _ => ⟨rows[24], row_mem 24 (by decide), rfl, hits_of_mask (encodeI_shift_mask ..) rfl⟩

theorem EncodeHits.add : ∀ rd rs1 rs2, EncodeHits.Statement (.add rd rs1 rs2) :=
  fun _ _ _ _ => ⟨rows[25], row_mem 25 (by decide), rfl, hits_of_mask (encodeR_mask ..) rfl⟩

theorem EncodeHits.sub : ∀ rd rs1 rs2, EncodeHits.Statement (.sub rd rs1 rs2) :=
  fun _ _ _ _ => ⟨rows[26], row_mem 26 (by decide), rfl, hits_of_mask (encodeR_mask ..) rfl⟩

theorem EncodeHits.sll : ∀ rd rs1 rs2, EncodeHits.Statement (.sll rd rs1 rs2) :=
  fun _ _ _ _ => ⟨rows[27], row_mem 27 (by decide), rfl, hits_of_mask (encodeR_mask ..) rfl⟩

theorem EncodeHits.slt : ∀ rd rs1 rs2, EncodeHits.Statement (.slt rd rs1 rs2) :=
  fun _ _ _ _ => ⟨rows[28], row_mem 28 (by decide), rfl, hits_of_mask (encodeR_mask ..) rfl⟩

theorem EncodeHits.sltu : ∀ rd rs1 rs2, EncodeHits.Statement (.sltu rd rs1 rs2) :=
  fun _ _ _ _ => ⟨rows[29], row_mem 29 (by decide), rfl, hits_of_mask (encodeR_mask ..) rfl⟩

theorem EncodeHits.xor : ∀ rd rs1 rs2, EncodeHits.Statement (.xor rd rs1 rs2) :=
  fun _ _ _ _ => ⟨rows[30], row_mem 30 (by decide), rfl, hits_of_mask (encodeR_mask ..) rfl⟩

theorem EncodeHits.srl : ∀ rd rs1 rs2, EncodeHits.Statement (.srl rd rs1 rs2) :=
  fun _ _ _ _ => ⟨rows[31], row_mem 31 (by decide), rfl, hits_of_mask (encodeR_mask ..) rfl⟩

theorem EncodeHits.sra : ∀ rd rs1 rs2, EncodeHits.Statement (.sra rd rs1 rs2) :=
  fun _ _ _ _ => ⟨rows[32], row_mem 32 (by decide), rfl, hits_of_mask (encodeR_mask ..) rfl⟩

theorem EncodeHits.or : ∀ rd rs1 rs2, EncodeHits.Statement (.or rd rs1 rs2) :=
  fun _ _ _ _ => ⟨rows[33], row_mem 33 (by decide), rfl, hits_of_mask (encodeR_mask ..) rfl⟩

theorem EncodeHits.and : ∀ rd rs1 rs2, EncodeHits.Statement (.and rd rs1 rs2) :=
  fun _ _ _ _ => ⟨rows[34], row_mem 34 (by decide), rfl, hits_of_mask (encodeR_mask ..) rfl⟩

theorem EncodeHits.mul : ∀ rd rs1 rs2, EncodeHits.Statement (.mul rd rs1 rs2) :=
  fun _ _ _ _ => ⟨rows[35], row_mem 35 (by decide), rfl, hits_of_mask (encodeR_mask ..) rfl⟩

theorem EncodeHits.mulh : ∀ rd rs1 rs2, EncodeHits.Statement (.mulh rd rs1 rs2) :=
  fun _ _ _ _ => ⟨rows[36], row_mem 36 (by decide), rfl, hits_of_mask (encodeR_mask ..) rfl⟩

theorem EncodeHits.mulhsu : ∀ rd rs1 rs2, EncodeHits.Statement (.mulhsu rd rs1 rs2) :=
  fun _ _ _ _ => ⟨rows[37], row_mem 37 (by decide), rfl, hits_of_mask (encodeR_mask ..) rfl⟩

theorem EncodeHits.mulhu : ∀ rd rs1 rs2, EncodeHits.Statement (.mulhu rd rs1 rs2) :=
  fun _ _ _ _ => ⟨rows[38], row_mem 38 (by decide), rfl, hits_of_mask (encodeR_mask ..) rfl⟩

theorem EncodeHits.div : ∀ rd rs1 rs2, EncodeHits.Statement (.div rd rs1 rs2) :=
  fun _ _ _ _ => ⟨rows[39], row_mem 39 (by decide), rfl, hits_of_mask (encodeR_mask ..) rfl⟩

theorem EncodeHits.divu : ∀ rd rs1 rs2, EncodeHits.Statement (.divu rd rs1 rs2) :=
  fun _ _ _ _ => ⟨rows[40], row_mem 40 (by decide), rfl, hits_of_mask (encodeR_mask ..) rfl⟩

theorem EncodeHits.rem : ∀ rd rs1 rs2, EncodeHits.Statement (.rem rd rs1 rs2) :=
  fun _ _ _ _ => ⟨rows[41], row_mem 41 (by decide), rfl, hits_of_mask (encodeR_mask ..) rfl⟩

theorem EncodeHits.remu : ∀ rd rs1 rs2, EncodeHits.Statement (.remu rd rs1 rs2) :=
  fun _ _ _ _ => ⟨rows[42], row_mem 42 (by decide), rfl, hits_of_mask (encodeR_mask ..) rfl⟩

theorem EncodeHits.lui : ∀ rd imm20, EncodeHits.Statement (.lui rd imm20) :=
  fun _ _ _ => ⟨rows[43], row_mem 43 (by decide), rfl, hits_of_mask (encodeU_mask ..) rfl⟩

theorem EncodeHits.auipc : ∀ rd imm20, EncodeHits.Statement (.auipc rd imm20) :=
  fun _ _ _ => ⟨rows[44], row_mem 44 (by decide), rfl, hits_of_mask (encodeU_mask ..) rfl⟩

theorem EncodeHits.nemuTrap : EncodeHits.Statement .nemuTrap :=
  fun _ => ⟨rows[45], row_mem 45 (by decide), rfl, by decide⟩

theorem EncodeHits.inv : ∀ word, EncodeHits.Statement (.inv word) :=
  fun _ _ => ⟨catchAll, by simp [patternTable], rfl, hits_of_mask BitVec.and_zero rfl⟩

end Sys2Proof.Laws
end

