-- ==== Sys2Proof/Tests/Slice0.lean ====
section
/-!
SUPPORT. Tests and witnesses. The expected values are those of 95_test_vectors.md (the vector is named at each
test), which derives them by hand from the rules, or the written-out words of the formats; none comes from
this model.
-/

namespace Sys2Proof.Machine

/-! ## WellFormed: each check, and a term it refuses -/

/-- A branch offset must be even (R63). -/
theorem test_odd_branch_offset_refused : (Instr.beq 1 2 9#13).wellFormed = false := by decide

/-- A jump offset must be even (R61). -/
theorem test_odd_jal_offset_refused : (Instr.jal 1 0x1fffff#21).wellFormed = false := by decide

/-- `inv` cannot carry a word that a row matches (R71): the trap word, an `addi`. -/
theorem test_matched_word_refused_as_inv :
    (Instr.inv 0x00100073#32).wellFormed = false ∧ (Instr.inv 0x00a00293#32).wellFormed = false := by decide

theorem test_wellFormed_accepts :
    (Instr.beq 1 2 0x1ffc#13).wellFormed = true ∧ (Instr.jal 0 2#21).wellFormed = true ∧
    (Instr.inv 0x00000000#32).wellFormed = true ∧ (Instr.inv 0xffffffff#32).wellFormed = true := by decide

/-! ## Decoding: words written out field by field -/

/-- Format B (R55, R67 rows 0 to 5); the first word is the spec's `beq x1, x2, -4`, 0xfe208ee3. -/
theorem test_decode_branches :
    decodeWord 0b1_111111_00010_00001_000_1110_1_1100011#32 = .beq 1 2 0x1ffc#13 ∧
    decodeWord 0b0_000000_00010_00001_001_0100_0_1100011#32 = .bne 1 2 8#13 ∧
    decodeWord 0b0_000000_00010_00001_100_0100_0_1100011#32 = .blt 1 2 8#13 ∧
    decodeWord 0b0_000000_00010_00001_101_0100_0_1100011#32 = .bge 1 2 8#13 ∧
    decodeWord 0b0_000000_00010_00001_110_0100_0_1100011#32 = .bltu 1 2 8#13 ∧
    decodeWord 0b0_000000_00010_00001_111_0100_0_1100011#32 = .bgeu 1 2 8#13 ∧
    decodeWord 0b1_000000_00010_00001_000_0000_0_1100011#32 = .beq 1 2 0x1000#13 ∧
    decodeWord 0b0_111111_00010_00001_000_1111_1_1100011#32 = .beq 1 2 0xffe#13 := by decide

/-- Formats J and I (R57, R53, R67 rows 6 and 7; vectors V-J3, V-J6, V-J9). -/
theorem test_decode_jumps :
    decodeWord 0b1_1111111110_1_11111111_00000_1101111#32 = .jal 0 0x1ffffc#21 ∧
    decodeWord 0b0_0000000000_1_00000000_00101_1101111#32 = .jal 5 2048#21 ∧
    decodeWord 0b111111111100_00101_000_00001_1100111#32 = .jalr 1 5 0xffc#12 := by decide

/-- Format I (R53, R67 rows 8 to 12; vectors V-L1 to V-L12). -/
theorem test_decode_loads :
    decodeWord 0b000000000000_00010_000_01010_0000011#32 = .lb 10 2 0#12 ∧
    decodeWord 0b000000000000_00010_001_01010_0000011#32 = .lh 10 2 0#12 ∧
    decodeWord 0b111111111100_00010_010_01010_0000011#32 = .lw 10 2 0xffc#12 ∧
    decodeWord 0b000000000011_00010_100_01010_0000011#32 = .lbu 10 2 3#12 ∧
    decodeWord 0b000000000010_00010_101_01010_0000011#32 = .lhu 10 2 2#12 := by decide

/-- Format S (R54, R67 rows 13 to 15; vectors V-S4 to V-S6). -/
theorem test_decode_stores :
    decodeWord 0b0000000_00011_00010_000_00011_0100011#32 = .sb 2 3 3#12 ∧
    decodeWord 0b0000000_00011_00010_001_00010_0100011#32 = .sh 2 3 2#12 ∧
    decodeWord 0b1111111_00011_00010_010_11100_0100011#32 = .sw 2 3 0xffc#12 := by decide

/-- Format I (R53, R67 rows 16 to 24; vectors of 2.9). -/
theorem test_decode_alu_immediate :
    decodeWord 0b000000001010_00000_000_00101_0010011#32 = .addi 5 0 10#12 ∧
    decodeWord 0b000000000101_00001_010_00101_0010011#32 = .slti 5 1 5#12 ∧
    decodeWord 0b111111111111_00001_011_00101_0010011#32 = .sltiu 5 1 0xfff#12 ∧
    decodeWord 0b000011111111_00001_100_00101_0010011#32 = .xori 5 1 255#12 ∧
    decodeWord 0b000011110000_00001_110_00101_0010011#32 = .ori 5 1 240#12 ∧
    decodeWord 0b111111110000_00001_111_00101_0010011#32 = .andi 5 1 0xff0#12 ∧
    decodeWord 0b0000000_11111_00001_001_00101_0010011#32 = .slli 5 1 31#5 ∧
    decodeWord 0b0000000_11111_00001_101_00101_0010011#32 = .srli 5 1 31#5 ∧
    decodeWord 0b0100000_11111_00001_101_00101_0010011#32 = .srai 5 1 31#5 := by decide

/-- Format R (R52, R67 rows 25 to 34; words of 2.10). -/
theorem test_decode_alu_register :
    decodeWord 0b0000000_00010_00001_000_00011_0110011#32 = .add 3 1 2 ∧
    decodeWord 0b0100000_00010_00001_000_00011_0110011#32 = .sub 3 1 2 ∧
    decodeWord 0b0000000_00010_00001_001_00011_0110011#32 = .sll 3 1 2 ∧
    decodeWord 0b0000000_00010_00001_010_00011_0110011#32 = .slt 3 1 2 ∧
    decodeWord 0b0000000_00010_00001_011_00011_0110011#32 = .sltu 3 1 2 ∧
    decodeWord 0b0000000_00010_00001_100_00011_0110011#32 = .xor 3 1 2 ∧
    decodeWord 0b0000000_00010_00001_101_00011_0110011#32 = .srl 3 1 2 ∧
    decodeWord 0b0100000_00010_00001_101_00011_0110011#32 = .sra 3 1 2 ∧
    decodeWord 0b0000000_00010_00001_110_00011_0110011#32 = .or 3 1 2 ∧
    decodeWord 0b0000000_00010_00001_111_00011_0110011#32 = .and 3 1 2 := by decide

/-- Format R, funct7 0000001 (R52, R67 rows 35 to 42; words of 2.11). -/
theorem test_decode_multiply_divide :
    decodeWord 0b0000001_00010_00001_000_00011_0110011#32 = .mul 3 1 2 ∧
    decodeWord 0b0000001_00010_00001_001_00011_0110011#32 = .mulh 3 1 2 ∧
    decodeWord 0b0000001_00010_00001_010_00011_0110011#32 = .mulhsu 3 1 2 ∧
    decodeWord 0b0000001_00010_00001_011_00011_0110011#32 = .mulhu 3 1 2 ∧
    decodeWord 0b0000001_00010_00001_100_00011_0110011#32 = .div 3 1 2 ∧
    decodeWord 0b0000001_00010_00001_101_00011_0110011#32 = .divu 3 1 2 ∧
    decodeWord 0b0000001_00010_00001_110_00011_0110011#32 = .rem 3 1 2 ∧
    decodeWord 0b0000001_00010_00001_111_00011_0110011#32 = .remu 3 1 2 := by decide

/-- Formats U and N (R56, R58, R67 rows 43 to 46; vectors V-U1, V-U7, V-T1, V-M22). -/
theorem test_decode_upper_and_terminal :
    decodeWord 0b00010010001101000101_00101_0110111#32 = .lui 5 0x12345#20 ∧
    decodeWord 0b00000000000000000001_00101_0010111#32 = .auipc 5 1#20 ∧
    decodeWord 0b0000000_00001_00000_000_00000_1110011#32 = .nemuTrap ∧
    decodeWord 0b0000000_00000_00000_000_00000_1110011#32 = .inv 0x00000073#32 := by decide

/-- Words of V-M20 to V-M33 that are near misses of a row select the catch-all. -/
theorem test_reserved_words_are_inv :
    [0x00000000#32, 0xffffffff#32, 0x00200073#32, 0x02001013#32, 0x40001013#32, 0x20005013#32, 0x40001033#32,
      0x04000033#32].all (fun w => decodeWord w == .inv w && sel w == 46) = true := by decide

/-- The same of words of V-M34 to V-M45. -/
theorem test_more_reserved_words_are_inv :
    [0x00003003#32, 0x00006003#32, 0x00003023#32, 0x00002063#32, 0x00001067#32, 0x00100072#32, 0x00100173#32,
      0x00108073#32, 0x80100073#32].all (fun w => decodeWord w == .inv w && sel w == 46) = true := by decide

/-- The selected entry of V-M1 to V-M13. -/
theorem test_selected_entry :
    sel 0x00000013#32 = 16 ∧ sel 0x00100073#32 = 45 ∧ sel 0x40005013#32 = 24 ∧ sel 0x00005013#32 = 23 ∧
    sel 0x40000033#32 = 26 ∧ sel 0x02000033#32 = 35 ∧ sel 0x00000067#32 = 7 ∧ sel 0xfffff0ef#32 = 6 ∧
    sel 0x0220f1b3#32 = 42 := by decide

/-- Bytes in memory order: the word 0x00a00293 is the bytes 93 02 a0 00 (95_test_vectors.md section 3). -/
theorem test_decode_bytes :
    decode [0x93#8, 0x02#8, 0xa0#8, 0x00#8, 0x55#8] = .ok (.addi 5 0 10#12, [0x55#8]) := by rfl

theorem test_decode_truncated : decode [0x93#8, 0x02#8, 0xa0#8] = .error .truncated := by rfl

theorem test_decodeTableWord : decodeTableWord 32 0x00a00293 = some (.addi 5 0 10#12) := by decide

/-! ## Extractor and operand decoder -/

/-- V-X1, V-X3, V-X6, V-X28. -/
theorem test_bits :
    bits 0xdeadbeef#32 31 28 = some 0xd ∧ bits 0xdeadbeef#32 31 0 = some 0xdeadbeef ∧
    bits 0xdeadbeef#32 19 15 = some 27 ∧ bits 0xdeadbeef#32 5 9 = none ∧ bits 0xdeadbeef#32 32 0 = none := by decide

/-- V-X10, V-X14, V-X16, V-X21, V-X26. -/
theorem test_signExtend :
    signExtend 0x800 12 = 0xfffff800#32 ∧ signExtend 1 1 = 0xffffffff#32 ∧
    signExtend 0x80000000 32 = 0x80000000#32 ∧ signExtend 0x1000 13 = 0xfffff000#32 ∧
    signExtend 0xfffff800 12 = 0xfffff800#32 := by decide

/-- V-O1: the immediates of 0xdeadbeef under each tag. -/
theorem test_immediates :
    wordImmI 0xdeadbeef#32 = 0xfffffdea#32 ∧ wordImmU 0xdeadbeef#32 = 0xdeadb000#32 ∧
    wordImmJ 0xdeadbeef#32 = 0xfffdb5ea#32 ∧ wordImmS 0xdeadbeef#32 = 0xfffffdfd#32 ∧
    wordImmB 0xdeadbeef#32 = 0xfffffdfc#32 := by decide

/-! ## One step -/

/-- Reset with some registers set and one instruction where the next step fetches. -/
def bench (w : Nat) (xs : List (Reg × Word)) : State :=
  (xs.foldl (fun s p => s.writeReg p.1 p.2) State.reset).withFetchWord 32 w

/-- The same with bytes stored from 0x80000100 up, as the vectors of 2.6 have them. -/
def State.with100 (s : State) (bs : List Byte) : State := { s with mem := s.mem.writeBytes 0x80000100#32 bs }

/-- The step answers a next state that passes the check. -/
def stepShows (s : State) (check : State → Bool) : Bool :=
  match step s with
  | .next t => check t
  | .fault _ => false
  | .refused _ => false

/-- V-B3, S8-10. -/
theorem test_beq_taken_backward :
    stepShows (bench 0xfe208ee3 [(1, 0x00000005#32), (2, 0x00000005#32)])
      (fun t => t.pc == 0x7ffffffc#32) = true := by decide

/-- V-B2, S8-5. -/
theorem test_beq_not_taken :
    stepShows (bench 0x00208463 [(1, 0x00000001#32), (2, 0x00000002#32)])
      (fun t => t.pc == 0x80000004#32) = true := by decide

/-- V-B4. -/
theorem test_bne :
    stepShows (bench 0x00209463 [(1, 0xffffffff#32), (2, 0x00000001#32)])
      (fun t => t.pc == 0x80000008#32) = true := by decide

/-- V-B4, signed. -/
theorem test_blt :
    stepShows (bench 0x0020c463 [(1, 0xffffffff#32), (2, 0x00000001#32)])
      (fun t => t.pc == 0x80000008#32) = true := by decide

/-- V-B5, signed. -/
theorem test_bge :
    stepShows (bench 0x0020d463 [(1, 0x00000001#32), (2, 0xffffffff#32)])
      (fun t => t.pc == 0x80000008#32) = true := by decide

/-- V-B4, unsigned. -/
theorem test_bltu :
    stepShows (bench 0x0020e463 [(1, 0xffffffff#32), (2, 0x00000001#32)])
      (fun t => t.pc == 0x80000004#32) = true := by decide

/-- V-B1, equal. -/
theorem test_bgeu :
    stepShows (bench 0x0020f463 [(1, 0x00000005#32), (2, 0x00000005#32)])
      (fun t => t.pc == 0x80000008#32) = true := by decide

/-- V-J1, S8-4. -/
theorem test_jal_to_self :
    stepShows (bench 0x000000ef [])
      (fun t => t.pc == 0x80000000#32 && t.readReg 1 == 0x80000004#32) = true := by decide

/-- V-J4. -/
theorem test_jal_farthest :
    stepShows (bench 0x800000ef [])
      (fun t => t.pc == 0x7ff00000#32 && t.readReg 1 == 0x80000004#32) = true := by decide

/-- V-J11. -/
theorem test_jalr_same_register :
    stepShows (bench 0x008282e7 [(5, 0x80000100#32)])
      (fun t => t.pc == 0x80000108#32 && t.readReg 5 == 0x80000004#32) = true := by decide

/-- V-J10. -/
theorem test_jalr_odd_target :
    stepShows (bench 0x000280e7 [(5, 0x80000101#32)])
      (fun t => t.pc == 0x80000101#32 && t.readReg 1 == 0x80000004#32) = true := by decide

/-- V-L6. -/
theorem test_lb :
    stepShows ((bench 0x00310503 [(2, 0x80000100#32)]).with100 [0xff#8, 0xaa#8, 0x99#8, 0x88#8])
      (fun t => t.readReg 10 == 0xffffff88#32) = true := by decide

/-- V-L8. -/
theorem test_lbu :
    stepShows ((bench 0x00314503 [(2, 0x80000100#32)]).with100 [0xff#8, 0xaa#8, 0x99#8, 0x88#8])
      (fun t => t.readReg 10 == 0x00000088#32) = true := by decide

/-- V-L18, misaligned. -/
theorem test_lh :
    stepShows ((bench 0x00111503 [(2, 0x80000100#32)]).with100 [0xff#8, 0xaa#8, 0x99#8, 0x88#8])
      (fun t => t.readReg 10 == 0xffff99aa#32) = true := by decide

/-- V-L11. -/
theorem test_lhu :
    stepShows ((bench 0x00215503 [(2, 0x80000100#32)]).with100 [0xff#8, 0xaa#8, 0x99#8, 0x88#8])
      (fun t => t.readReg 10 == 0x00008899#32) = true := by decide

/-- V-L12. -/
theorem test_lw :
    stepShows ((bench 0xffc12503 [(2, 0x80000104#32)]).with100 [0xff#8, 0xaa#8, 0x99#8, 0x88#8])
      (fun t => t.readReg 10 == 0x8899aaff#32 && t.pc == 0x80000004#32) = true := by decide

/-- V-L14. -/
theorem test_lw_same_register :
    stepShows ((bench 0x00012103 [(2, 0x80000100#32)]).with100 [0xff#8, 0xaa#8, 0x99#8, 0x88#8])
      (fun t => t.readReg 2 == 0x8899aaff#32) = true := by decide

/-- V-S5. -/
theorem test_sb :
    stepShows ((bench 0x003101a3 [(2, 0x80000100#32), (3, 0xa1b2c3d4#32)]).with100 [0xff#8, 0xaa#8, 0x99#8, 0x88#8])
      (fun t => t.byte 0x80000103#32 == 0xd4#8 && t.byte 0x80000102#32 == 0x99#8 && t.byte 0x80000104#32 == 0x00#8) = true := by decide

/-- V-S6. -/
theorem test_sh :
    stepShows ((bench 0x00311123 [(2, 0x80000100#32), (3, 0xa1b2c3d4#32)]).with100 [0xff#8, 0xaa#8, 0x99#8, 0x88#8])
      (fun t => t.byte 0x80000102#32 == 0xd4#8 && t.byte 0x80000103#32 == 0xc3#8 && t.byte 0x80000101#32 == 0xaa#8) = true := by decide

/-- V-S3. -/
theorem test_sw :
    stepShows (bench 0x00312023 [(2, 0x80000100#32), (3, 0xa1b2c3d4#32)])
      (fun t => t.byte 0x80000100#32 == 0xd4#8 && t.byte 0x80000101#32 == 0xc3#8 && t.byte 0x80000102#32 == 0xb2#8 && t.byte 0x80000103#32 == 0xa1#8) = true := by decide

/-- V-S7. -/
theorem test_sw_zero_keeps_canonical_form :
    stepShows ((bench 0x00012023 [(2, 0x80000100#32)]).with100 [0xff#8, 0xaa#8, 0x99#8, 0x88#8])
      (fun t => t.mem == (bench 0x00012023 []).mem) = true := by decide

/-- V-F1. -/
theorem test_lw_refused :
    stepShows (bench 0x00012503 [(2, 0x7ffffffc#32), (10, 0x00000007#32)])
      (fun t => t.status == .terminated (.memFault .read 0x7ffffffc#32 .four) && t.readReg 10 == 0x00000007#32) = true := by decide

/-- V-F2. -/
theorem test_sw_refused_across_the_end :
    stepShows (bench 0x00312023 [(2, 0x87fffffe#32), (3, 0xffffffff#32)])
      (fun t => t.status == .terminated (.memFault .write 0x87fffffe#32 .four) && t.byte 0x87fffffe#32 == 0x00#8) = true := by decide

/-- V-F3. -/
theorem test_lb_last_byte_of_ram :
    stepShows (bench 0x00010503 [(2, 0x87ffffff#32)])
      (fun t => t.status == .running && t.readReg 10 == 0x00000000#32) = true := by decide

/-- V-I4. -/
theorem test_addi :
    stepShows (bench 0x80008293 [(1, 0x00000000#32)])
      (fun t => t.readReg 5 == 0xfffff800#32) = true := by decide

/-- V-I6, S8-3. -/
theorem test_addi_to_zero :
    stepShows (bench 0x00108013 [(1, 0x00000005#32)])
      (fun t => t.readReg 0 == 0x00000000#32 && t.pc == 0x80000004#32) = true := by decide

/-- V-I12. -/
theorem test_slti :
    stepShows (bench 0x8000a293 [(1, 0x80000000#32)])
      (fun t => t.readReg 5 == 0x00000001#32) = true := by decide

/-- V-I14. -/
theorem test_sltiu :
    stepShows (bench 0xfff0b293 [(1, 0x00000005#32)])
      (fun t => t.readReg 5 == 0x00000001#32) = true := by decide

/-- V-I17. -/
theorem test_xori :
    stepShows (bench 0xfff0c293 [(1, 0x0f0f0f0f#32)])
      (fun t => t.readReg 5 == 0xf0f0f0f0#32) = true := by decide

/-- V-I20. -/
theorem test_ori :
    stepShows (bench 0x8000e293 [(1, 0x0f0f0f0f#32)])
      (fun t => t.readReg 5 == 0xffffff0f#32) = true := by decide

/-- V-I22. -/
theorem test_andi :
    stepShows (bench 0xff00f293 [(1, 0x0f0f0f0f#32)])
      (fun t => t.readReg 5 == 0x0f0f0f00#32) = true := by decide

/-- V-I24. -/
theorem test_slli :
    stepShows (bench 0x00109293 [(1, 0x80000001#32)])
      (fun t => t.readReg 5 == 0x00000002#32) = true := by decide

/-- V-I28. -/
theorem test_srli :
    stepShows (bench 0x01f0d293 [(1, 0x80000001#32)])
      (fun t => t.readReg 5 == 0x00000001#32) = true := by decide

/-- V-I30, S8-7. -/
theorem test_srai :
    stepShows (bench 0x4010d293 [(1, 0x80000001#32)])
      (fun t => t.readReg 5 == 0xc0000000#32) = true := by decide

/-- V-R1. -/
theorem test_add :
    stepShows (bench 0x002081b3 [(1, 0xffffffff#32), (2, 0x00000001#32)])
      (fun t => t.readReg 3 == 0x00000000#32) = true := by decide

/-- V-R3. -/
theorem test_add_same_register :
    stepShows (bench 0x001080b3 [(1, 0x00000003#32)])
      (fun t => t.readReg 1 == 0x00000006#32) = true := by decide

/-- V-R4. -/
theorem test_sub :
    stepShows (bench 0x402081b3 [(1, 0x00000000#32), (2, 0x00000001#32)])
      (fun t => t.readReg 3 == 0xffffffff#32) = true := by decide

/-- V-R8, amount 32. -/
theorem test_sll :
    stepShows (bench 0x002091b3 [(1, 0x00000001#32), (2, 0x00000020#32)])
      (fun t => t.readReg 3 == 0x00000001#32) = true := by decide

/-- V-R12. -/
theorem test_slt :
    stepShows (bench 0x0020a1b3 [(1, 0x80000000#32), (2, 0x7fffffff#32)])
      (fun t => t.readReg 3 == 0x00000001#32) = true := by decide

/-- V-R14. -/
theorem test_sltu :
    stepShows (bench 0x0020b1b3 [(1, 0xffffffff#32), (2, 0x00000001#32)])
      (fun t => t.readReg 3 == 0x00000000#32) = true := by decide

/-- V-R18. -/
theorem test_xor :
    stepShows (bench 0x0020c1b3 [(1, 0xff00ff00#32), (2, 0x0ff00ff0#32)])
      (fun t => t.readReg 3 == 0xf0f0f0f0#32) = true := by decide

/-- V-R20, amount 33. -/
theorem test_srl :
    stepShows (bench 0x0020d1b3 [(1, 0x80000000#32), (2, 0x00000021#32)])
      (fun t => t.readReg 3 == 0x40000000#32) = true := by decide

/-- V-R22, amount 36. -/
theorem test_sra :
    stepShows (bench 0x4020d1b3 [(1, 0x80000000#32), (2, 0x00000024#32)])
      (fun t => t.readReg 3 == 0xf8000000#32) = true := by decide

/-- V-R24. -/
theorem test_or :
    stepShows (bench 0x0020e1b3 [(1, 0xff00ff00#32), (2, 0x0ff00ff0#32)])
      (fun t => t.readReg 3 == 0xfff0fff0#32) = true := by decide

/-- V-R25. -/
theorem test_and :
    stepShows (bench 0x0020f1b3 [(1, 0xff00ff00#32), (2, 0x0ff00ff0#32)])
      (fun t => t.readReg 3 == 0x0f000f00#32) = true := by decide

/-- V-D9. -/
theorem test_mul :
    stepShows (bench 0x022081b3 [(1, 0x12345678#32), (2, 0x9abcdef0#32)])
      (fun t => t.readReg 3 == 0x242d2080#32) = true := by decide

/-- V-D9. -/
theorem test_mulh :
    stepShows (bench 0x022091b3 [(1, 0x12345678#32), (2, 0x9abcdef0#32)])
      (fun t => t.readReg 3 == 0xf8cc93d6#32) = true := by decide

/-- V-D4. -/
theorem test_mulhsu :
    stepShows (bench 0x0220a1b3 [(1, 0x80000000#32), (2, 0xffffffff#32)])
      (fun t => t.readReg 3 == 0x80000000#32) = true := by decide

/-- V-D2. -/
theorem test_mulhu :
    stepShows (bench 0x0220b1b3 [(1, 0xffffffff#32), (2, 0xffffffff#32)])
      (fun t => t.readReg 3 == 0xfffffffe#32) = true := by decide

/-- V-D12. -/
theorem test_div :
    stepShows (bench 0x0220c1b3 [(1, 0xffffffec#32), (2, 0x00000006#32)])
      (fun t => t.readReg 3 == 0xfffffffd#32) = true := by decide

/-- V-D18, default DivPolicy. -/
theorem test_div_overflow :
    stepShows (bench 0x0220c1b3 [(1, 0x80000000#32), (2, 0xffffffff#32)])
      (fun t => t.readReg 3 == 0x80000000#32) = true := by decide

/-- V-D12. -/
theorem test_divu :
    stepShows (bench 0x0220d1b3 [(1, 0xffffffec#32), (2, 0x00000006#32)])
      (fun t => t.readReg 3 == 0x2aaaaaa7#32) = true := by decide

/-- V-D12. -/
theorem test_rem :
    stepShows (bench 0x0220e1b3 [(1, 0xffffffec#32), (2, 0x00000006#32)])
      (fun t => t.readReg 3 == 0xfffffffe#32) = true := by decide

/-- V-D14. -/
theorem test_remu :
    stepShows (bench 0x0220f1b3 [(1, 0xffffffec#32), (2, 0xfffffffa#32)])
      (fun t => t.readReg 3 == 0xffffffec#32) = true := by decide

/-- V-D15, default DivPolicy. -/
theorem test_remu_by_zero :
    stepShows (bench 0x0220f1b3 [(1, 0x00000007#32), (2, 0x00000000#32)])
      (fun t => t.readReg 3 == 0x00000007#32) = true := by decide

/-- V-U2. -/
theorem test_lui :
    stepShows (bench 0xfffff2b7 [])
      (fun t => t.readReg 5 == 0xfffff000#32) = true := by decide

/-- V-U9. -/
theorem test_auipc :
    stepShows (bench 0xfffff297 [])
      (fun t => t.readReg 5 == 0x7ffff000#32 && t.pc == 0x80000004#32) = true := by decide

/-- V-T3. -/
theorem test_nemu_trap :
    stepShows (bench 0x00100073 [(10, 0xffffffff#32), (11, 0x00000005#32)])
      (fun t => t.status == .terminated (.ended 0x80000000#32 0xffffffff#32) && t.readReg 10 == 0xffffffff#32) = true := by decide

/-- V-T5. -/
theorem test_inv :
    stepShows (bench 0x00000000 [])
      (fun t => t.status == .terminated (.invalid 0x80000000#32)) = true := by decide

/-- V-F4: a fetch outside the RAM ends the run before anything else. -/
theorem test_fetch_refused :
    stepShows { State.reset with pc := 0x88000000#32 }
      (fun t => t.status == .terminated (.memFault .fetch 0x88000000#32 .four)) = true := by decide

/-- V-J7: both sums of `jal` wrap. -/
theorem test_jal_wraps :
    (match exec (.jal 1 8#21) { State.reset with pc := 0xfffffffc#32, snpc := 0#32, dnpc := 0#32 } with
      | .next t => t.dnpc == 4#32 && t.readReg 1 == 0#32
      | .fault _ => false
      | .refused _ => false) = true := by decide

/-- V-T7: no step is taken after a terminal condition. -/
theorem test_no_step_after_end :
    step { bench 0x00100073 [] with status := .terminated (.invalid 0#32) } = .fault (.runOver (.invalid 0#32)) := by rfl

/-! ## Witnesses: states and operands that meet the hypotheses of the statements -/

/-- A state whose memory lists bytes at both ends of the address space. -/
theorem witness_ResetMeetsInvariant : Memory.wf [(0, 1#8), (0x80000000, 2#8), (0xffffffff, 3#8)] := by decide

theorem witness_StepKeepsInvariant :
    (bench 0x00310023 [(2, 0x80000100#32), (3, 0xd4#32)]).Inv ∧
    stepShows (bench 0x00310023 [(2, 0x80000100#32), (3, 0xd4#32)]) (fun t => t.mem.length == 3) = true := by decide

/-- Three steps of `jal x1, 0`, which jumps to itself (S8-4). -/
theorem witness_RunsKeepInvariant :
    (bench 0x000000ef []).Inv ∧
    (match Sys2Proof.core.run 3 (bench 0x000000ef []) with
      | .next t => t.readReg 1 == 0x80000004#32
      | .fault _ => false
      | .refused _ => false) = true := by decide

/-- A state with a non-zero x[0], which no run reaches, and a step that reaches step 5. -/
theorem witness_StepForcesRegisterZero :
    { bench 0x00a00293 [] with regs := Vector.replicate 32 7#32 }.readReg 0 = 7#32 ∧
    stepShows { bench 0x00a00293 [] with regs := Vector.replicate 32 7#32 }
      (fun t => t.reachesStep5 && t.readReg 0 == 0#32) = true := by decide

theorem witness_DecodeOfEncode :
    (Instr.beq 31 0 0x1000#13).wellFormed = true ∧ (Instr.jal 31 0xffffe#21).wellFormed = true ∧
    (Instr.srai 0 31 31#5).wellFormed = true ∧ (Instr.inv 0xffffffff#32).wellFormed = true := by decide

theorem witness_BytesDecodeToInstruction :
    (Instr.addi 5 0 10#12).wellFormed = true ∧ [0x93#8, 0x02#8, 0xa0#8].length < 4 ∧
    ¬ [0x93#8, 0x02#8, 0xa0#8, 0x00#8].length < 4 := by decide

theorem witness_RowsPairwiseDisjoint : rows[16] ∈ rows ∧ rows[16].hits 0x00a00293#32 = true :=
  ⟨List.getElem_mem _, by decide⟩

theorem witness_CatchAllTakesUnmatchedWords :
    (∀ e ∈ rows, e.hits 0x00000073#32 = false) ∧ decodeWord 0x00000073#32 = .inv 0x00000073#32 :=
  ⟨fun e he => by
    have h : (!e.hits 0x00000073#32) = true :=
      List.all_eq_true.mp (show unmatched 0x00000073#32 = true by decide) e he
    simpa using h, by decide⟩

theorem witness_PatternIsKeyAndMask :
    parsePattern "0100000 ????? ????? 101 ????? 00100 11" = some (0x40005013#32, 0xfe00707f#32) ∧
    parsePattern "??????? ????? ????? ??? ????? ????? ??" = some (0#32, 0#32) := by
  constructor <;> simp [parsePattern, significant, patternKey, patternMask]

/-- The bounds of `bits` at both ends of its precondition, and calls outside it. -/
theorem witness_BitsExtractField :
    (0 ≤ 31 ∧ 31 ≤ 31) ∧ (31 ≤ 31 ∧ 31 ≤ 31) ∧ (0 ≤ 0 ∧ 0 ≤ 31) ∧ ¬ (9 ≤ 5 ∧ 5 ≤ 31) ∧ ¬ (0 ≤ 32 ∧ 32 ≤ 31) := by
  decide

/-- Also of SignExtendBits: the least and the greatest width, with values in both halves of the range. -/
theorem witness_SignExtendIsTwosComplement :
    (1 ≤ 1 ∧ 1 < 2 ^ 1 ∧ ¬ 1 < 2 ^ (1 - 1)) ∧ (0 < 2 ^ (1 - 1)) ∧
    (32 ≤ 32 ∧ 0x7fffffff < 2 ^ (32 - 1) ∧ 0x80000000 < 2 ^ 32 ∧ ¬ 0x80000000 < 2 ^ (32 - 1)) := by decide

/-- Also of RunningStepAnswersNext, TerminalConditionsHaveCauses and OnlyTransfersOverrideDnpc. -/
theorem witness_TableStepIsStep : State.reset.status = .running := rfl

theorem witness_StepRunsDecodedInstruction :
    (bench 0x00a00293 []).status = .running ∧
    (bench 0x00a00293 []).admits .fetch (bench 0x00a00293 []).pc .four = true ∧
    decode [(bench 0x00a00293 []).byte 0x80000000#32, (bench 0x00a00293 []).byte 0x80000001#32,
      (bench 0x00a00293 []).byte 0x80000002#32, (bench 0x00a00293 []).byte 0x80000003#32] =
        .ok (.addi 5 0 10#12, []) := ⟨rfl, by decide, rfl⟩

/-- The last word of the RAM is fetched; one byte further the fetch is refused, with the cursor at `pc`. -/
theorem witness_FetchReadsWordOrFaults :
    { State.reset with snpc := 0x87fffffc#32 }.admits .fetch 0x87fffffc#32 .four = true ∧
    { State.reset with pc := 0x87fffffd#32, snpc := 0x87fffffd#32 }.admits .fetch 0x87fffffd#32 .four = false := by
  decide

theorem witness_NoStepAfterTerminalCondition :
    { State.reset with status := .terminated (.ended 4#32 0#32) }.status = .terminated (.ended 4#32 0#32) := rfl

theorem witness_ContinueCommitsDnpc :
    stepShows (bench 0x00a00293 []) (fun t => t.status == .running) = true ∧
    isTransfer (decodeWord 0x00a00293#32) = false ∧
    stepShows (bench 0x008000ef []) (fun t => t.status == .running && t.pc == 0x80000008#32) = true := by decide

/-- Each of the three kinds of terminal condition ends a step from a state with x[0] = 0. -/
theorem witness_TerminalConditionsArePrecise :
    (bench 0x00100073 []).readReg 0 = 0#32 ∧
    stepShows (bench 0x00100073 []) (fun t => t.status == .terminated (.ended 0x80000000#32 0#32)) = true ∧
    stepShows (bench 0x00000073 []) (fun t => t.status == .terminated (.invalid 0x80000000#32)) = true ∧
    stepShows (bench 0x00012503 []) (fun t => t.status == .terminated (.memFault .read 0#32 .four)) = true := by
  decide

/-- The causes of `CausedBy`: a refused fetch, the trap, an unmatched word, a refused load. -/
theorem witness_TerminalConditionsHaveCauses :
    CausedBy { State.reset with pc := 0#32 } (.memFault .fetch 0#32 .four) ∧
    CausedBy (bench 0x00100073 []) (.ended 0x80000000#32 0#32) ∧
    CausedBy (bench 0x00000073 []) (.invalid 0x80000000#32) ∧
    CausedBy (bench 0x00012503 []) (.memFault .read 0#32 .four) := by
  refine ⟨.inl ⟨by decide, rfl⟩, .inr ⟨_, _, rfl, .inl ⟨by decide, by decide⟩⟩,
    .inr ⟨_, _, rfl, .inr (.inl ⟨by decide, rfl⟩)⟩,
    .inr ⟨_, _, rfl, .inr (.inr ⟨.read, .four, 0#32, by decide, by decide, by decide, rfl⟩)⟩⟩

/-- A register write, a store, a refused load, the trap and a refused fetch, seen at the ports. -/
theorem witness_PortsAccountForStep :
    (fun p : Ports => (p.rfWe, p.rfWaddr, p.rfWdata, p.rfZero, p.dnpc, p.status)) (bench 0x00a00293 []).ports =
      (true, some 5, some 10#32, true, some 0x80000004#32, some 0) ∧
    (fun p : Ports => (p.rfWe, p.memReq, p.memFault)) (bench 0x00310023 [(2, 0x80000100#32), (3, 0x1d4#32)]).ports =
      (false, MemReq.write 0x80000100#32 .one 0xd4 Config.memMode, false) ∧
    (fun p : Ports => (p.rfWe, p.memFault, p.rfZero, p.memReq.access, p.status)) (bench 0x00012503 []).ports =
      (false, true, false, some (.read, 0#32, .four), none) ∧
    (fun p : Ports => (p.signalEnd, p.signalInvalid)) (bench 0x00100073 []).ports =
      (some (0x80000000#32, 0#32), none) ∧
    (fun p : Ports => (p.pc, p.snpcIn, p.fetchFault, p.rfWe, p.rfZero, p.memReq, p.inst))
      (State.ports { State.reset with pc := 0x88000000#32 }) =
      (0x88000000#32, 0x88000000#32, true, false, false, MemReq.none, none) := ⟨rfl, rfl, rfl, rfl, rfl⟩

/-- An action that is no transfer answers a next state, and a fetch is served. -/
theorem witness_OnlyTransfersOverrideDnpc :
    isTransfer (.addi 5 0 10#12) = false ∧ (∃ t, exec (.addi 5 0 10#12) State.reset = .next t) ∧
    ∃ w u, (bench 0x00a00293 []).setCursor.fetch = .ok (w, u) := ⟨rfl, ⟨_, rfl⟩, ⟨_, _, rfl⟩⟩

theorem witness_ActionsKeepToTheirScope :
    destination (.add 3 1 2) ≠ some 4 ∧ destination (.sw 1 2 0#12) ≠ some 2 ∧
    dataAccess (.sw 1 2 0#12) = some (.write, .four) ∧
    ¬ (0x7fffffff < 2 ^ 32 ∧ (BitVec.ofNat 32 0x7fffffff - effectiveAddr
      ((bench 0 [(1, 0x80000000#32)]).operandsOf (.sw 1 2 0#12))).toNat < AccessLen.bytes .four) ∧
    dataAccess (.add 3 1 2) = none ∧ isTransfer (.add 3 1 2) = false ∧
    (∀ n, dataAccess (.lw 1 2 0#12) ≠ some (.write, n)) := by
  refine ⟨by decide, by decide, rfl, by decide, rfl, rfl, fun n => ?_⟩
  cases n <;> decide

/-- Both outcomes of every relation occur: equal, below signed, below unsigned. -/
theorem witness_BranchRelationTargets :
    (0x7ffffffc#32 = BitVec.ofInt 32 ((0x80000000#32).toNat + (0x1ffc#13).toInt)) ∧
    (0xffffffff#32).toInt < (1#32).toInt ∧ ¬ (0xffffffff#32).toNat < (1#32).toNat := by decide

/-- A load of each length is answered at both ends of the RAM. -/
theorem witness_LoadsWidenValueRead :
    (bench 0 [(2, 0x80000000#32)]).memRead ((bench 0 [(2, 0x80000000#32)]).readReg 2 + (0#12).signExtend 32) .one =
      .ok 0 ∧
    (bench 0 [(2, 0x88000000#32)]).memRead ((bench 0 [(2, 0x88000000#32)]).readReg 2 + (0xffe#12).signExtend 32)
      .two = .ok 0 ∧
    (bench 0 [(2, 0x88000000#32)]).memRead ((bench 0 [(2, 0x88000000#32)]).readReg 2 + (0xffc#12).signExtend 32)
      .four = .ok 0 := ⟨rfl, rfl, rfl⟩

/-- A read of each length is refused. -/
theorem witness_LoadsWidenValueRead_refused :
    State.reset.memRead (State.reset.readReg 0 + (0#12).signExtend 32) .one = .error (.memFault .read 0#32 .one) ∧
    State.reset.memRead (State.reset.readReg 0 + (0#12).signExtend 32) .two = .error (.memFault .read 0#32 .two) ∧
    State.reset.memRead (State.reset.readReg 0 + (0#12).signExtend 32) .four = .error (.memFault .read 0#32 .four) :=
  ⟨rfl, rfl, rfl⟩

theorem witness_ReadsAreLittleEndian :
    State.reset.admits .read 0x80000000#32 .one = true ∧ State.reset.admits .read 0x87fffffe#32 .two = true ∧
    State.reset.admits .read 0x87fffffc#32 .four = true ∧ State.reset.admits .read 0x87fffffd#32 .four = false ∧
    State.reset.admits .read 0x7fffffff#32 .one = false ∧ State.reset.admits .read 0x87ffffff#32 .two = false := by
  decide

/-- Of StoreByteStoresLowByte and StoreHalfAndWord: canonical memory, and a store of each length served in the last bytes of the RAM. -/
theorem witness_StoresComplete :
    (bench 0x00a00293 [(2, 0x88000000#32)]).mem.wf ∧
    (bench 0 [(2, 0x88000000#32)]).admits .write
      ((bench 0 [(2, 0x88000000#32)]).readReg 2 + (0xfff#12).signExtend 32) .one = true ∧
    (bench 0 [(2, 0x88000000#32)]).admits .write
      ((bench 0 [(2, 0x88000000#32)]).readReg 2 + (0xffe#12).signExtend 32) .two = true ∧
    (bench 0 [(2, 0x88000000#32)]).admits .write
      ((bench 0 [(2, 0x88000000#32)]).readReg 2 + (0xffc#12).signExtend 32) .four = true := by decide

/-- Loads and stores of each length are refused one byte past where they fit. -/
theorem witness_RefusedAccessChangesNothing :
    (0x87fffffd#32 = (bench 0 [(2, 0x88000000#32)]).readReg 2 + (0xffd#12).signExtend 32) ∧
    (bench 0 [(2, 0x88000000#32)]).admits .read 0x88000000#32 .one = false ∧
    (bench 0 [(2, 0x88000000#32)]).admits .read 0x87ffffff#32 .two = false ∧
    (bench 0 [(2, 0x88000000#32)]).admits .read 0x87fffffd#32 .four = false ∧
    (bench 0 [(2, 0x88000000#32)]).admits .write 0x88000000#32 .one = false ∧
    (bench 0 [(2, 0x88000000#32)]).admits .write 0x87ffffff#32 .two = false ∧
    (bench 0 [(2, 0x88000000#32)]).admits .write 0x87fffffd#32 .four = false := by decide

/-- Of LoadSeesEarlierStore and FetchSeesEarlierStore: a store and the load of the same address, both served; the fetch of the stored word. -/
theorem witness_LoadAndFetchSeeEarlierStore :
    (bench 0 [(2, 0x80000100#32), (3, 0x00a00293#32)]).mem.wf ∧
    (bench 0 [(2, 0x80000100#32), (3, 0x00a00293#32)]).admits .write 0x80000100#32 .four = true ∧
    ∃ t, exec (.sw 2 3 0#12) (bench 0 [(2, 0x80000100#32), (3, 0x00a00293#32)]) = .next t ∧
      t.admits .read 0x80000100#32 .four = true ∧ t.admits .read 0x80000103#32 .one = true ∧
      t.readReg 2 + (3#12).signExtend 32 = 0x80000100#32 + BitVec.ofNat 32 3 ∧
      { t with snpc := 0x80000100#32 }.admits .fetch 0x80000100#32 .four = true :=
  ⟨by decide, by decide, _, rfl, by decide, by decide, by decide, by decide⟩

theorem witness_ReferenceRamServesItsRange :
    State.reset.params.memAdmit = .referenceRam ∧ State.reset.admits .write 0x80000000#32 .one = true ∧
    State.reset.admits .write 0x7fffffff#32 .one = false ∧ State.reset.admits .fetch 0x80000001#32 .four = true := by
  decide

/-- Of UnsignedDivision, SignedDivisionTruncates and DivisionCorners. The divisors: zero, the overflow pair, an ordinary pair; the default policy and the open one. -/
theorem witness_DivisionClauses :
    (bench 0 [(1, 0x80000000#32), (2, 0xffffffff#32)]).readReg 1 = 0x80000000#32 ∧
    (bench 0 [(1, 0x80000000#32), (2, 0xffffffff#32)]).readReg 2 = 0xffffffff#32 ∧
    (bench 0 [(1, 7#32)]).readReg 2 = 0#32 ∧
    (bench 0 [(1, 0xffffffec#32), (2, 6#32)]).readReg 2 ≠ 0#32 ∧
    ¬ ((bench 0 [(1, 0x80000000#32), (2, 6#32)]).readReg 1 = 0x80000000#32 ∧
      (bench 0 [(1, 0x80000000#32), (2, 6#32)]).readReg 2 = 0xffffffff#32) ∧
    State.reset.params.divPolicy = .specDefault := by decide

/-- Of LogicActsBitwise, ShiftsScaleByPowersOfTwo and ProductsOfSixtyFourBits: the names they give operands. -/
theorem witness_OperandNames :
    (bench 0 [(1, 0xff00ff00#32), (2, 36#32)]).readReg 1 = 0xff00ff00#32 ∧
    (bench 0 [(1, 0xff00ff00#32), (2, 36#32)]).readReg 2 = 36#32 ∧
    ((bench 0 [(1, 0xff00ff00#32), (2, 36#32)]).readReg 2).toNat % 32 = 4 ∧
    (0x800#12).signExtend 32 = 0xfffff800#32 := by decide

end Sys2Proof.Machine
end

/-!
PROOFS. The bit-field extractor and the operand multiplexer (40_extractor_and_operands.md R80, R85 to R91).
-/

namespace Sys2Proof

/-! ## Cuts and concatenations as numbers -/

/-- A cut of `n + 1` bits, as a number, is the field that the spec writes by its two ends (R80). -/
theorem toNat_extractLsb'_eq_field (w : Word) (lo n : Nat) :
    (w.extractLsb' lo (n + 1)).toNat = field w (lo + n) lo := by
  rw [field_eq, Nat.add_sub_cancel_left]

/-- Concatenation as the spec's field arithmetic: the upper part times the lower part's range, plus the lower part. -/
theorem toNat_append_eq_mul_add {m n : Nat} (a : BitVec m) (b : BitVec n) :
    (a ++ b).toNat = a.toNat * 2 ^ n + b.toNat := by
  rw [BitVec.toNat_append, ← Nat.shiftLeft_add_eq_or_of_lt b.isLt, Nat.shiftLeft_eq]

/-! ## The extractor -/

/-- Inside its precondition `bits` answers the field (R80). -/
theorem bits_of_range (w : Word) {hi lo : Nat} (hlo : lo ≤ hi) (hhi : hi ≤ 31) :
    bits w hi lo = some (field w hi lo) := if_pos ⟨hlo, hhi⟩

theorem field_lt (w : Word) (hi lo : Nat) : field w hi lo < 2 ^ (hi - lo + 1) :=
  Nat.mod_lt _ (Nat.two_pow_pos _)

theorem testBit_field (w : Word) (hi lo k : Nat) :
    (field w hi lo).testBit k = (decide (k ≤ hi - lo) && w.getLsbD (lo + k)) := by
  rw [field_eq, BitVec.testBit_toNat, BitVec.getLsbD_extractLsb']
  simp only [Nat.lt_succ_iff]

/-- Settles O16: the answer is the field, whose bits are those of the word. -/
theorem bitsExtractField : Obligations.BitsExtractField := fun w hi lo hlo hhi =>
  ⟨field w hi lo, bits_of_range w hlo hhi, field_lt w hi lo, testBit_field w hi lo⟩

end Sys2Proof

namespace Sys2Proof.Machine

/-! ## The word's immediates are the decoder's, extended -/

/-- Format I (R59). -/
theorem wordImmI_eq (w : Word) : wordImmI w = (immI w).signExtend 32 := by
  have hfield : field w 31 20 = (immI w).toNat := (toNat_extractLsb'_eq_field w 20 11).symm
  rw [wordImmI, hfield, signExtend_toNat (by decide) (by decide)]

/-- Format U (R60): shifting left by 12 appends 12 zeros. -/
theorem wordImmU_eq (w : Word) : wordImmU w = immU w ++ 0#12 := by
  have hfield : field w 31 12 * 2 ^ 12 = (immU w ++ 0#12).toNat := by
    rw [toNat_append_eq_mul_add, immU, toNat_extractLsb'_eq_field w 12 19, BitVec.toNat_ofNat, Nat.zero_mod,
      Nat.add_zero]
  rw [wordImmU, hfield, BitVec.ofNat_toNat, BitVec.setWidth_eq]

/-- Format J (R61). -/
theorem wordImmJ_eq (w : Word) : wordImmJ w = (immJ w).signExtend 32 := by
  have hfields : field w 31 31 * 2 ^ 20 + field w 19 12 * 2 ^ 12 + field w 20 20 * 2 ^ 11 + field w 30 21 * 2 =
      (immJ w).toNat := by
    simp only [immJ, toNat_append_eq_mul_add, BitVec.toNat_ofNat]
    simp only [toNat_extractLsb'_eq_field, Nat.reduceAdd]
    omega
  rw [wordImmJ, hfields, signExtend_toNat (by decide) (by decide)]

/-- Format S (R62). -/
theorem wordImmS_eq (w : Word) : wordImmS w = (immS w).signExtend 32 := by
  have hfields : field w 31 25 * 2 ^ 5 + field w 11 7 = (immS w).toNat := by
    rw [immS, toNat_append_eq_mul_add, toNat_extractLsb'_eq_field w 25 6, toNat_extractLsb'_eq_field w 7 4]
  rw [wordImmS, hfields, signExtend_toNat (by decide) (by decide)]

/-- Format B (R63), with the sign extension of 90_conflicts.md C1. -/
theorem wordImmB_eq (w : Word) : wordImmB w = (immB w).signExtend 32 := by
  have hfields : field w 31 31 * 2 ^ 12 + field w 7 7 * 2 ^ 11 + field w 30 25 * 2 ^ 5 + field w 11 8 * 2 =
      (immB w).toNat := by
    simp only [immB, toNat_append_eq_mul_add, BitVec.toNat_ofNat]
    simp only [toNat_extractLsb'_eq_field, Nat.reduceAdd]
    omega
  rw [wordImmB, hfields, signExtend_toNat (by decide) (by decide)]

/-! ## The multiplexer -/

section
variable (w : Word) (s : State)

/-- Tag I (R85). -/
theorem decodeOperand_i : decodeOperand w .i s = s.operandsI (rs1Field w) (immI w) := by
  simp only [decodeOperand, wordImmI_eq, State.operandsI]

/-- Tag U (R86). -/
theorem decodeOperand_u : decodeOperand w .u s = operandsU (immU w) := by
  simp only [decodeOperand, wordImmU_eq, operandsU]

/-- Tag J (R87). -/
theorem decodeOperand_j : decodeOperand w .j s = operandsJ (immJ w) := by
  simp only [decodeOperand, wordImmJ_eq, operandsJ]

/-- Tag S (R88). -/
theorem decodeOperand_s : decodeOperand w .s s = s.operandsS (rs1Field w) (rs2Field w) (immS w) := by
  simp only [decodeOperand, wordImmS_eq, State.operandsS]

/-- Tag B (R89). -/
theorem decodeOperand_b : decodeOperand w .b s = s.operandsB (rs1Field w) (rs2Field w) (immB w) := by
  simp only [decodeOperand, wordImmB_eq, State.operandsB]

/-- Tag R (R90). -/
theorem decodeOperand_r : decodeOperand w .r s = s.operandsR (rs1Field w) (rs2Field w) := rfl

/-- Tag N (R91). -/
theorem decodeOperand_n : decodeOperand w .n s = operandsN := rfl

end

/-- Settles O20: for every tag the multiplexer answers the operand form of the decoded immediates. -/
theorem operandsByTag : Obligations.OperandsByTag := fun w s =>
  ⟨decodeOperand_i w s, decodeOperand_u w s, decodeOperand_j w s, decodeOperand_s w s, decodeOperand_b w s,
    decodeOperand_r w s, decodeOperand_n w s⟩

end Sys2Proof.Machine


/-!
PROOFS. The matcher and step 5 of the driver (41_matcher_and_driver.md R102, R103, R112).
-/

namespace Sys2Proof

/-! ## The selection -/

/-- The catch-all fixes no bit, so every word matches it (R103). -/
theorem catchAll_hits (w : Word) : catchAll.hits w = true :=
  hits_of_mask BitVec.and_zero rfl

theorem patternTable_length : patternTable.length = 47 := rfl

/-- The selection is total: its index lies in the table, since the catch-all does (R103). -/
theorem sel_lt_length (w : Word) : sel w < patternTable.length :=
  List.findIdx_lt_length_of_exists ⟨catchAll, List.mem_append_right rows List.mem_cons_self, catchAll_hits w⟩

theorem hits_getElem_sel (w : Word) : (patternTable[sel w]'(sel_lt_length w)).hits w = true :=
  List.findIdx_getElem (w := sel_lt_length w)

/-- No entry before the selected index matches (R102). -/
theorem hits_eq_false_of_lt_sel {w : Word} {n : Nat} (hn : n < sel w) :
    (patternTable[n]'(hn.trans (sel_lt_length w))).hits w = false :=
  List.not_of_lt_findIdx hn

/-- The selected entry is the one at the selected index, so `select` never answers its default (R102). -/
theorem getElem_sel_eq_select (w : Word) : patternTable[sel w]'(sel_lt_length w) = select w := by
  have hfind : patternTable.find? (fun e => e.hits w) = some (patternTable[sel w]'(sel_lt_length w)) :=
    List.find?_eq_getElem?_findIdx.trans (List.getElem?_eq_getElem (sel_lt_length w))
  rw [select, hfind, Option.getD_some]

theorem select_hits (w : Word) : (select w).hits w = true :=
  getElem_sel_eq_select w ▸ hits_getElem_sel w

/-- Settles O11: the catch-all bounds the index, and `sel` is the first index that matches. -/
theorem firstMatchSelects : Obligations.FirstMatchSelects := fun w =>
  ⟨sel_lt_length w, patternTable_length, getElem_sel_eq_select w, select_hits w,
    fun _ hn => hits_eq_false_of_lt_sel hn⟩

end Sys2Proof

namespace Sys2Proof.Machine

/-! ## Step 5 of the driver -/

/-- Whether step 5 is reached turns on the status alone (R111, R250). -/
theorem State.reachesStep5_congr {s t : State} (h : s.status = t.status) :
    s.reachesStep5 = t.reachesStep5 := by
  simp only [State.reachesStep5, h]

@[simp] theorem State.reachesStep5_finishStep (s : State) : s.finishStep.reachesStep5 = s.reachesStep5 :=
  State.reachesStep5_congr s.finishStep_status
@[simp] theorem State.reachesStep5_commit (s : State) : s.commit.reachesStep5 = s.reachesStep5 :=
  State.reachesStep5_congr s.commit_status

/-- After steps 5 and 6 and the commit, register 0 reads zero whenever step 5 was reached (R112). -/
theorem State.readReg_zero_finishStep_commit {s : State} (h : s.finishStep.commit.reachesStep5 = true) :
    s.finishStep.commit.readReg 0 = 0#32 := by
  have h5 : s.reachesStep5 = true := by simpa only [reachesStep5_commit, reachesStep5_finishStep] using h
  rw [readReg_commit, readReg_finishStep, if_pos ⟨h5, rfl⟩]

/-- Settles O6: a refused fetch does not reach step 5, and every other step ends with it and the commit. -/
theorem stepForcesRegisterZero : Obligations.StepForcesRegisterZero := by
  intro s t hstep hreach
  rcases step_running s (running_of_step hstep) with ⟨_, hraise⟩ | ⟨_, u, _, _, _, hfinish⟩
  · cases hraise.symm.trans hstep
    exact absurd hreach Bool.false_ne_true
  · cases hfinish.symm.trans hstep
    exact State.readReg_zero_finishStep_commit hreach

end Sys2Proof.Machine


/-!
PROOFS. Control transfer (42_control_transfer.md R120, R121, R127).
-/

namespace Sys2Proof.Machine

/-- Adding a sign-extended offset in 32 bits is integer addition modulo 2^32. -/
theorem add_signExtend_eq_ofInt {n : Nat} (a : Word) (off : BitVec n) :
    a + off.signExtend 32 = BitVec.ofInt 32 (a.toNat + off.toInt) := by
  rw [BitVec.ofInt_add, BitVec.ofInt_natCast, BitVec.ofNat_toNat, BitVec.setWidth_eq, BitVec.signExtend]

/-! ## Branches -/

/-- A branch chooses `pc + imm` when it is taken, and otherwise does nothing (R120). -/
theorem branchIf_holds (s : State) (taken : Bool) (o : Bundle) :
    (jumps (if taken then some (s.pc + o.imm) else none)).Holds s (s.branchIf taken o) := by
  cases taken with
  | true => exact jumps_some_holds s _
  | false => exact jumps_none_holds s

/-- An action whose answer is a branch on the relation `p` jumps by its offset exactly when `p` holds. -/
theorem does_of_branchIf {i : Instr} {s : State} {taken : Bool} {o : Bundle} {n : Nat} {off : BitVec n} {p : Prop}
    [Decidable p] (hexec : exec i s = .next (s.branchIf taken o)) (himm : o.imm = off.signExtend 32)
    (htaken : taken = true ↔ p) :
    Does i s (jumps (if p then some (BitVec.ofInt 32 (s.pc.toNat + off.toInt)) else none)) := by
  have hholds := branchIf_holds s taken o
  simp only [htaken, himm, add_signExtend_eq_ofInt] at hholds
  exact ⟨_, hexec, hholds⟩

/-- Settles O33: the relation of `beq` is equality of the two source registers. -/
theorem branchEqualTarget : Obligations.BranchEqualTarget := fun _ _ _ _ =>
  does_of_branchIf rfl rfl beq_iff_eq

/-! ## Jumps with a link -/

/-- A register write followed by an override of `dnpc`: the override leaves the register, and the write
leaves everything else. -/
theorem link_holds (s : State) (rd : Reg) (v a : Word) :
    ({ reg := some (rd, v), dnpc := some a } : Effect).Holds s ((s.writeReg rd v).setDnpc a) :=
  have hwrite := writes_holds s rd v
  { hwrite with dnpc := rfl }

/-- Settles O35: `jal` writes the link and then chooses `pc + imm`. -/
theorem jalLinksAndJumps : Obligations.JalLinksAndJumps := fun s rd off =>
  ⟨_, rfl, add_signExtend_eq_ofInt s.pc off ▸ link_holds s rd s.snpc (s.pc + off.signExtend 32)⟩

end Sys2Proof.Machine


/-!
PROOFS. Sums, logic and shifts of the ALU (44_alu_immediate.md R160 to R169, 45_alu_register.md R180 to R190).
-/

namespace Sys2Proof.Machine

/-- An instruction may be described by any expression equal to the value it writes. -/
theorem does_of_writeReg_eq {i : Instr} {s : State} {rd : Reg} {v w : Word} (hvalue : v = w)
    (hexec : exec i s = .next (s.writeReg rd v)) : Does i s (writes rd w) :=
  hvalue ▸ does_of_writeReg hexec

/-! ## Sums -/

/-- Adding a sign-extended immediate in 32 bits is the sum of the signed values modulo 2^32. -/
theorem add_signExtend_eq_ofInt_toInt {n : Nat} (a : Word) (imm : BitVec n) :
    a + imm.signExtend 32 = BitVec.ofInt 32 (a.toInt + imm.toInt) := by
  rw [BitVec.ofInt_add, BitVec.ofInt_toInt, BitVec.signExtend]

/-- The sum of two words is the sum of their unsigned values modulo 2^32. -/
theorem add_eq_ofNat_toNat (a b : Word) : a + b = BitVec.ofNat 32 (a.toNat + b.toNat) := by
  rw [BitVec.ofNat_add, BitVec.ofNat_toNat, BitVec.ofNat_toNat, BitVec.setWidth_eq, BitVec.setWidth_eq]

/-- Settles O45: both additions write the 32-bit sum. -/
theorem additionsWrap : Obligations.AdditionsWrap := fun _ _ _ _ _ =>
  ⟨does_of_writeReg_eq (add_signExtend_eq_ofInt_toInt _ _) rfl, does_of_writeReg_eq (add_eq_ofNat_toNat _ _) rfl⟩

/-! ## Logic -/

/-- Settles O47: the six results are the bit-vector operations, whose bits are those of the operands. -/
theorem logicActsBitwise : Obligations.LogicActsBitwise := by
  intro s rd rs1 rs2 imm a b m ha hb hm
  refine ⟨a ^^^ m, a ||| m, a &&& m, a ^^^ b, a ||| b, a &&& b, fun k => ?_, ?_⟩
  · exact ⟨BitVec.getLsbD_xor, BitVec.getLsbD_or, BitVec.getLsbD_and,
      BitVec.getLsbD_xor, BitVec.getLsbD_or, BitVec.getLsbD_and⟩
  · subst ha hb hm
    exact ⟨does_of_writeReg rfl, does_of_writeReg rfl, does_of_writeReg rfl,
      does_of_writeReg rfl, does_of_writeReg rfl, does_of_writeReg rfl⟩

/-! ## Shift amounts -/

/-- The low 5 bits of an operand are its value modulo 32 (R160, R180). -/
theorem shiftAmount_eq_mod (v : Word) : shiftAmount v = v.toNat % 32 := by
  simp only [shiftAmount, field, Nat.pow_zero, Nat.div_one, Nat.reduceSub, Nat.reduceAdd, Nat.reducePow]

/-- In a shift's immediate the 7 upper bits and the sign extension lie above the amount (R53, R160). -/
theorem shiftAmount_signExtend_append (f : BitVec 7) (shamt : BitVec 5) :
    shiftAmount ((f ++ shamt).signExtend 32) = shamt.toNat := by
  have hlow : ((f ++ shamt).signExtend 32).extractLsb' 0 5 = shamt := by
    rw [BitVec.signExtend_eq_append_of_le (by decide)]
    exact (BitVec.extractLsb'_append_eq_of_add_le (by decide)).trans BitVec.extractLsb'_append_eq_right
  rw [shiftAmount, field_eq, hlow]

/-! ## Shifts as arithmetic -/

theorem shiftLeft_eq_ofNat (a : Word) (n : Nat) : shiftLeft a n = BitVec.ofNat 32 (a.toNat * 2 ^ n) := by
  rw [shiftLeft, ← BitVec.shiftLeft_eq, BitVec.shiftLeft, Nat.shiftLeft_eq]

theorem shiftRightLogical_eq_ofNat (a : Word) (n : Nat) :
    shiftRightLogical a n = BitVec.ofNat 32 (a.toNat / 2 ^ n) := by
  apply BitVec.eq_of_toNat_eq
  have hlt : a.toNat / 2 ^ n < 2 ^ 32 := (Nat.div_le_self _ _).trans_lt a.isLt
  rw [shiftRightLogical, BitVec.toNat_ushiftRight, Nat.shiftRight_eq_div_pow, BitVec.toNat_ofNat, Nat.mod_eq_of_lt hlt]

/-- `Int` division by a positive number rounds down, as `>>s` does (R8). -/
theorem shiftRightArith_eq_ofInt (a : Word) (n : Nat) :
    shiftRightArith a n = BitVec.ofInt 32 (a.toInt / 2 ^ n) := by
  rw [shiftRightArith, BitVec.sshiftRight, Int.shiftRight_eq_div_pow, Nat.cast_pow, Nat.cast_ofNat]

/-- Settles O48: each shift is its arithmetic form, at the amount its operand encodes. -/
theorem shiftsScaleByPowersOfTwo : Obligations.ShiftsScaleByPowersOfTwo := by
  rintro s rd rs1 rs2 shamt a n rfl rfl
  have himm := fun f => shiftAmount_signExtend_append f shamt
  have hreg := shiftAmount_eq_mod (s.readReg rs2)
  exact ⟨does_of_writeReg_eq (himm _ ▸ shiftLeft_eq_ofNat _ _) rfl,
    does_of_writeReg_eq (himm _ ▸ shiftRightLogical_eq_ofNat _ _) rfl,
    does_of_writeReg_eq (himm _ ▸ shiftRightArith_eq_ofInt _ _) rfl,
    does_of_writeReg_eq (hreg ▸ shiftLeft_eq_ofNat _ _) rfl,
    does_of_writeReg_eq (hreg ▸ shiftRightLogical_eq_ofNat _ _) rfl,
    does_of_writeReg_eq (hreg ▸ shiftRightArith_eq_ofInt _ _) rfl⟩

end Sys2Proof.Machine


/-!
PROOFS. Products of multiply and divide (46_muldiv.md R200, R202, R203, R205).
-/

namespace Sys2Proof.Machine

/-! ## The 64-bit product -/

/-- Bits 63:32 of an exact product are those of its 64-bit two's complement: what lies above bit 63 is a
multiple of 2^32 after the division, so it vanishes modulo 2^32 (R200). -/
theorem highHalf_eq_extractLsb' (product : Int) :
    highHalf product = (BitVec.ofInt 64 product).extractLsb' 32 32 := by
  apply BitVec.eq_of_toNat_eq
  rw [highHalf, BitVec.toNat_ofInt, BitVec.extractLsb'_toNat, BitVec.toNat_ofInt, Nat.shiftRight_eq_div_pow]
  omega

/-- The product of sign-extended operands is the exact signed product, modulo 2^64. -/
theorem signExtend_mul_signExtend_eq_ofInt (a b : Word) :
    a.signExtend 64 * b.signExtend 64 = BitVec.ofInt 64 (a.toInt * b.toInt) := by
  rw [BitVec.ofInt_mul, BitVec.signExtend, BitVec.signExtend]

/-- The product of zero-extended operands is the exact unsigned product, modulo 2^64. -/
theorem setWidth_mul_setWidth_eq_ofNat (a b : Word) :
    a.setWidth 64 * b.setWidth 64 = BitVec.ofNat 64 (a.toNat * b.toNat) := by
  rw [BitVec.ofNat_mul, BitVec.ofNat_toNat, BitVec.ofNat_toNat]

/-! ## Its halves -/

/-- The value of `mul` (R202). -/
theorem ofNat_mul_eq_lowHalf (a b : Word) :
    BitVec.ofNat 32 (a.toNat * b.toNat) = (a.setWidth 64 * b.setWidth 64).extractLsb' 0 32 := by
  rw [setWidth_mul_setWidth_eq_ofNat, ← BitVec.setWidth_eq_extractLsb' (by decide),
    BitVec.setWidth_ofNat_of_le (by decide)]

/-- The value of `mulh` (R203). -/
theorem highHalf_toInt_mul_toInt (a b : Word) :
    highHalf (a.toInt * b.toInt) = (a.signExtend 64 * b.signExtend 64).extractLsb' 32 32 := by
  rw [highHalf_eq_extractLsb', signExtend_mul_signExtend_eq_ofInt]

/-- The value of `mulhu` (R205). -/
theorem highHalf_toNat_mul_toNat (a b : Word) :
    highHalf (a.toNat * b.toNat) = (a.setWidth 64 * b.setWidth 64).extractLsb' 32 32 := by
  rw [highHalf_eq_extractLsb', setWidth_mul_setWidth_eq_ofNat, ← Nat.cast_mul, BitVec.ofInt_natCast]

/-- Settles O49: each instruction writes its half of the 64-bit product. -/
theorem productsOfSixtyFourBits : Obligations.ProductsOfSixtyFourBits := by
  rintro s rd rs1 rs2 a b rfl rfl
  exact ⟨does_of_writeReg_eq (ofNat_mul_eq_lowHalf _ _) rfl,
    does_of_writeReg_eq (highHalf_toInt_mul_toInt _ _) rfl,
    does_of_writeReg_eq (highHalf_toNat_mul_toNat _ _) rfl⟩

end Sys2Proof.Machine


/-!
PROOFS. The action of an unmatched word (48_terminal.md R232).
-/

namespace Sys2Proof.Machine

/-- The carried word plays no part: `inv` answers its starting state with Invalid(pc) raised (R232). -/
theorem exec_inv (w : Word) (s : State) : exec (.inv w) s = .next (s.raise (.invalid s.pc)) := rfl

/-- Settles O57: the answer of `inv` is a raised condition, and raising changes the run status alone. -/
theorem invalidWordEndsRun : Obligations.InvalidWordEndsRun := fun s w =>
  does_of_raise (exec_inv w s)

end Sys2Proof.Machine


/-!
PROOFS. What every action leaves alone, and the invariant along steps and runs (10_state.md R12, R13, R16;
43_loads_stores.md R140).
-/

namespace Sys2Proof.Machine

/-! ## The frame of an action -/

section
variable {i : Instr} {s t : State}

theorem ActionAnswer.pc_eq (h : ActionAnswer i s t) : t.pc = s.pc := by
  cases h <;> simp

theorem ActionAnswer.snpc_eq (h : ActionAnswer i s t) : t.snpc = s.snpc := by
  cases h <;> simp

theorem ActionAnswer.params_eq (h : ActionAnswer i s t) : t.params = s.params := by
  cases h <;> simp

theorem ActionAnswer.freeCount_eq (h : ActionAnswer i s t) : t.freeCount = s.freeCount := by
  cases h <;> simp

/-- Only branches and jumps override `dnpc` (R16). -/
theorem ActionAnswer.dnpc_eq (h : ActionAnswer i s t) (ht : isTransfer i = false) : t.dnpc = s.dnpc := by
  cases h with
  | link _ _ _ _ htr | jump _ _ htr => exact absurd (ht.symm.trans htr) (by decide)
  | register | fall | stored | refused | trap | invalid => simp

/-- Only the destination is written (R12). -/
theorem ActionAnswer.readReg_eq (h : ActionAnswer i s t) {r : Reg} (hr : destination i ≠ some r) :
    t.readReg r = s.readReg r := by
  cases h with
  | register rd v hd | link rd v a hd =>
    have hne : r ≠ rd := fun h => hr (h ▸ hd)
    simp [State.readReg_writeReg, hne]
  | jump | fall | stored | refused | trap | invalid => rfl

/-- A write to register 0 is discarded (90_conflicts.md C5). -/
theorem ActionAnswer.readReg_zero (h : ActionAnswer i s t) : t.readReg 0 = s.readReg 0 := by
  cases h with
  | register | link => simp
  | jump | fall | stored | refused | trap | invalid => rfl

/-- Only a memory access and the two terminal actions can end the run. -/
theorem ActionAnswer.status_eq (h : ActionAnswer i s t) (hx : dataAccess i = none) (htrap : i ≠ .nemuTrap)
    (hinv : ∀ w, i ≠ .inv w) : t.status = s.status := by
  cases h with
  | refused _ _ _ _ hacc => exact absurd (hx.symm.trans hacc) (by simp)
  | trap hi => exact absurd hi htrap
  | invalid w hi => exact absurd hi (hinv w)
  | register | link | jump | fall | stored => simp

/-- Only stores change memory (R30). -/
theorem ActionAnswer.mem_eq (h : ActionAnswer i s t) (hx : ∀ n, dataAccess i ≠ some (.write, n)) :
    t.mem = s.mem := by
  cases h with
  | stored a n v hd ht hw => exact absurd hw (hx n)
  | register | link | jump | fall | refused | trap | invalid => simp

/-- A store changes only the bytes of its length from its effective address up (R140). -/
theorem ActionAnswer.byteAt_eq (h : ActionAnswer i s t) {n : AccessLen} (hx : dataAccess i = some (.write, n))
    {a : Nat} (ha : ¬ (a < 2 ^ 32 ∧
      (BitVec.ofNat 32 a - effectiveAddr (s.operandsOf i)).toNat < AccessLen.bytes n)) :
    t.mem.byteAt a = s.mem.byteAt a := by
  cases h with
  | stored b m v hd ht hw hb =>
    obtain rfl : m = n := by simpa [hw] using hx
    have hlen : (toBytesLE (AccessLen.bytes m) v).length < 2 ^ 32 := by
      rw [toBytesLE_length]; cases m <;> decide
    exact Memory.byteAt_writeBytes_outside _ _ _ hlen (by rwa [toBytesLE_length, hb])
  | register | link | jump | fall | refused | trap | invalid => simp

end

/-- Settles O32: every action answers a next state, and each clause is one of its frame rules. -/
theorem actionsKeepToTheirScope : Obligations.ActionsKeepToTheirScope := fun i s =>
  have ⟨t, hexec, h⟩ := exec_cases i s
  ⟨t, hexec, h.pc_eq, h.snpc_eq, h.params_eq, h.freeCount_eq, h.dnpc_eq, fun _ => h.readReg_eq, h.readReg_zero,
    h.status_eq, h.mem_eq, fun _ hx _ => h.byteAt_eq hx⟩

/-! ## The invariant -/

theorem ActionAnswer.inv {i : Instr} {s t : State} (h : ActionAnswer i s t) (hs : s.Inv) : t.Inv := by
  refine ⟨?_, h.readReg_zero.trans hs.2⟩
  cases h with
  | stored => exact Memory.wf_writeBytes hs.1 _ _
  | register | link | jump | fall | refused | trap | invalid => simpa using hs.1

/-- Steps 5 and 6 and the commit touch no memory, and register 0 only to clear it. -/
theorem State.inv_finishStep_commit {s : State} (hs : s.Inv) : s.finishStep.commit.Inv := by
  obtain ⟨hwf, hzero⟩ := hs
  exact ⟨by simpa using hwf, by simp [readReg_finishStep, hzero]⟩

/-- Settles O4: a refused fetch only raises; otherwise the action, step 5 and the commit each keep the invariant. -/
theorem stepKeepsInvariant : Obligations.StepKeepsInvariant := by
  intro s t hs hstep
  rcases step_running s (running_of_step hstep) with ⟨_, hraise⟩ | ⟨_, u, _, _, hans, hfinish⟩
  · cases hraise.symm.trans hstep
    exact hs
  · cases hfinish.symm.trans hstep
    exact State.inv_finishStep_commit (hans.inv hs)

/-- A run of `k + 1` steps that answers a next state is a step that does, and a run of `k`. -/
theorem run_succ_next {k : Nat} {s t : State} (h : Sys2Proof.core.run (k + 1) s = .next t) :
    ∃ u, step s = .next u ∧ Sys2Proof.core.run k u = .next t := by
  cases hstep : step s with
  | next u => exact ⟨u, rfl, run_of_step_next k hstep ▸ h⟩
  | fault r => exact absurd ((run_of_step_fault k hstep).symm.trans h) (by simp)
  | refused r => exact absurd ((run_of_step_refused k hstep).symm.trans h) (by simp)

/-- Settles O5, by induction on the number of steps. -/
theorem runsKeepInvariant : Obligations.RunsKeepInvariant := by
  intro k
  induction k with
  | zero =>
    intro s t hs hrun
    cases hrun
    exact hs
  | succ k ih =>
    intro s t hs hrun
    obtain ⟨u, hstep, hrest⟩ := run_succ_next hrun
    exact ih u t (stepKeepsInvariant s u hs hstep) hrest

/-- Settles O3: a reset clears register 0 and takes the host's memory as it is. -/
theorem resetMeetsInvariant : Obligations.ResetMeetsInvariant :=
  have hreset (p : Params) (xs : Vector Word 31) (m : Memory) (n : Nat) (hm : m.wf) : (State.resetWith p xs m n).Inv :=
    ⟨hm, State.readReg_resetWith_zero p xs m n⟩
  ⟨hreset _ _ _ _ Memory.wf_nil, hreset⟩

end Sys2Proof.Machine


/-!
PROOFS. The pattern table, the decoder and the encoder (30_encoding.md R50 to R73; 41_matcher_and_driver.md R100
to R103).
-/

namespace Sys2Proof

/-! ## Rows are disjoint -/

/-- Two rows that a word matches agree on every bit that both fix. -/
theorem key_and_mask_eq_of_hits {w : Word} {e f : Entry} (he : e.hits w = true) (hf : f.hits w = true) :
    e.key &&& f.mask = f.key &&& e.mask := by
  simp only [Entry.hits, beq_iff_eq] at he hf
  rw [← he, ← hf, BitVec.and_assoc, BitVec.and_assoc, BitVec.and_comm e.mask]

/-- The two entries fix some bit at different values, so no word matches both. -/
abbrev Entry.Conflicts (e f : Entry) : Prop := e.key &&& f.mask ≠ f.key &&& e.mask

theorem rows_pairwise_conflicts : rows.Pairwise Entry.Conflicts := by decide

/-- Settles O10: two rows that one word matches would agree on every bit that both fix. -/
theorem rowsPairwiseDisjoint : Obligations.RowsPairwiseDisjoint := by
  intro w e f he hf hew hfw
  have hsymm : Std.Symm Entry.Conflicts := ⟨fun _ _ h => h.symm⟩
  by_contra hne
  exact rows_pairwise_conflicts.forall he hf hne (key_and_mask_eq_of_hits hew hfw)

/-! ## The selected entry -/

/-- A word either selects one of the rows, or matches none and selects the catch-all (R102, R103). -/
theorem select_cases (w : Word) :
    (select w ∈ rows) ∨ (unmatched w = true ∧ select w = catchAll) := by
  cases hfind : rows.find? (fun e => e.hits w) with
  | some e =>
    refine .inl ?_
    simpa [select, patternTable, hfind] using List.mem_of_find?_eq_some hfind
  | none =>
    refine .inr ⟨?_, ?_⟩
    · simpa [unmatched] using hfind
    · simp [select, patternTable, hfind, catchAll_hits]

theorem select_mem (w : Word) : select w ∈ patternTable := by
  rcases select_cases w with hrow | ⟨_, hlast⟩
  · exact List.mem_append_left _ hrow
  · exact hlast ▸ List.mem_append_right _ List.mem_cons_self

/-- A row that matches is the selected one, since no other row does. -/
theorem select_eq_of_hits {w : Word} {e : Entry} (he : e ∈ rows) (hw : e.hits w = true) : select w = e := by
  rcases select_cases w with hrow | ⟨hnone, _⟩
  · exact rowsPairwiseDisjoint w _ _ hrow he (select_hits w) hw
  · have := List.all_eq_true.mp hnone e he
    simp [hw] at this

theorem select_eq_catchAll {w : Word} (h : unmatched w = true) : select w = catchAll := by
  rcases select_cases w with hrow | ⟨_, hlast⟩
  · have := List.all_eq_true.mp h _ hrow
    simp [select_hits] at this
  · exact hlast

/-! ## Encoding what was decoded -/

/-- The table's entry of an action. -/
def Mnemonic.entry (m : Mnemonic) : Entry := (patternTable.find? (fun e => e.action == m)).getD catchAll

theorem entry_action_key_mask : ∀ e ∈ patternTable, (e.action.entry).key = e.key ∧ (e.action.entry).mask = e.mask := by
  decide

@[simp] theorem regBits_rdField (w : Word) : regBits (rdField w) = w.extractLsb' 7 5 := regBits_regField w 7
@[simp] theorem regBits_rs1Field (w : Word) : regBits (rs1Field w) = w.extractLsb' 15 5 := regBits_regField w 15
@[simp] theorem regBits_rs2Field (w : Word) : regBits (rs2Field w) = w.extractLsb' 20 5 := regBits_regField w 20

theorem getLsbD_and_not_or (w m v : Word) {k : Nat} (hk : k < 32) :
    ((w &&& ~~~m) ||| v).getLsbD k = (w.getLsbD k && !m.getLsbD k || v.getLsbD k) := by
  simp [hk]

theorem encodeR_decoded (w : Word) (f7 : BitVec 7) (f3 : BitVec 3) (op : BitVec 7) :
    encodeR f7 (rs2Field w) (rs1Field w) f3 (rdField w) op =
      (w &&& ~~~0xfe00707f#32) ||| encodeR f7 0 0 f3 0 op := by
  refine BitVec.eq_of_getLsbD_eq fun k hk => ?_
  simp only [encodeR, regBits_rs2Field, regBits_rs1Field, regBits_rdField,
    getLsbD_and_not_or _ _ _ hk, BitVec.getLsbD_append, BitVec.getLsbD_extractLsb']
  interval_cases k <;> simp [regBits]

theorem encodeI_decoded (w : Word) (f3 : BitVec 3) (op : BitVec 7) :
    encodeI (immI w) (rs1Field w) f3 (rdField w) op = (w &&& ~~~0x0000707f#32) ||| encodeI 0 0 f3 0 op := by
  refine BitVec.eq_of_getLsbD_eq fun k hk => ?_
  simp only [encodeI, immI, regBits_rs1Field, regBits_rdField,
    getLsbD_and_not_or _ _ _ hk, BitVec.getLsbD_append, BitVec.getLsbD_extractLsb']
  interval_cases k <;> simp [regBits]

theorem encodeI_shift_decoded (w : Word) (f7 : BitVec 7) (f3 : BitVec 3) (op : BitVec 7) :
    encodeI (f7 ++ shamtField w) (rs1Field w) f3 (rdField w) op =
      (w &&& ~~~0xfe00707f#32) ||| encodeI (f7 ++ 0#5) 0 f3 0 op := by
  refine BitVec.eq_of_getLsbD_eq fun k hk => ?_
  simp only [encodeI, shamtField, regBits_rs1Field, regBits_rdField,
    getLsbD_and_not_or _ _ _ hk, BitVec.getLsbD_append, BitVec.getLsbD_extractLsb']
  interval_cases k <;> simp [regBits]

theorem encodeS_decoded (w : Word) (f3 : BitVec 3) (op : BitVec 7) :
    encodeS (immS w) (rs2Field w) (rs1Field w) f3 op = (w &&& ~~~0x0000707f#32) ||| encodeS 0 0 0 f3 op := by
  refine BitVec.eq_of_getLsbD_eq fun k hk => ?_
  simp only [encodeS, immS, regBits_rs2Field, regBits_rs1Field,
    getLsbD_and_not_or _ _ _ hk, BitVec.getLsbD_append, BitVec.getLsbD_extractLsb']
  interval_cases k <;> simp [regBits]

theorem encodeB_decoded (w : Word) (f3 : BitVec 3) (op : BitVec 7) :
    encodeB (immB w) (rs2Field w) (rs1Field w) f3 op = (w &&& ~~~0x0000707f#32) ||| encodeB 0 0 0 f3 op := by
  refine BitVec.eq_of_getLsbD_eq fun k hk => ?_
  simp only [encodeB, immB, regBits_rs2Field, regBits_rs1Field,
    getLsbD_and_not_or _ _ _ hk, BitVec.getLsbD_append, BitVec.getLsbD_extractLsb']
  interval_cases k <;> simp [regBits]

theorem encodeU_decoded (w : Word) (op : BitVec 7) :
    encodeU (immU w) (rdField w) op = (w &&& ~~~0x0000007f#32) ||| encodeU 0 0 op := by
  refine BitVec.eq_of_getLsbD_eq fun k hk => ?_
  simp only [encodeU, immU, regBits_rdField,
    getLsbD_and_not_or _ _ _ hk, BitVec.getLsbD_append, BitVec.getLsbD_extractLsb']
  interval_cases k <;> simp [regBits]

theorem encodeJ_decoded (w : Word) (op : BitVec 7) :
    encodeJ (immJ w) (rdField w) op = (w &&& ~~~0x0000007f#32) ||| encodeJ 0 0 op := by
  refine BitVec.eq_of_getLsbD_eq fun k hk => ?_
  simp only [encodeJ, immJ, regBits_rdField,
    getLsbD_and_not_or _ _ _ hk, BitVec.getLsbD_append, BitVec.getLsbD_extractLsb']
  interval_cases k <;> simp [regBits]

/-- Encoding an instruction built from a word keeps the word's free bits and puts the action's fixed bits over
the others. -/
theorem encode_build (m : Mnemonic) (w : Word) : encode (build m w) = (w &&& ~~~m.entry.mask) ||| m.entry.key := by
  cases m with
  | beq | bne | blt | bge | bltu | bgeu => exact encodeB_decoded w _ _
  | jal => exact encodeJ_decoded w _
  | jalr | lb | lh | lw | lbu | lhu | addi | slti | sltiu | xori | ori | andi => exact encodeI_decoded w _ _
  | sb | sh | sw => exact encodeS_decoded w _ _
  | slli | srli | srai => exact encodeI_shift_decoded w _ _ _
  | add | sub | sll | slt | sltu | xor | srl | sra | or | and => exact encodeR_decoded w _ _ _
  | mul | mulh | mulhsu | mulhu | div | divu | rem | remu => exact encodeR_decoded w _ _ _
  | lui | auipc => exact encodeU_decoded w _
  | nemuTrap => exact (BitVec.and_zero ▸ (BitVec.zero_or).symm : _ = (w &&& 0#32) ||| 0x00100073#32)
  | inv => exact ((BitVec.or_zero).trans BitVec.and_allOnes).symm

/-- A matching word is put together again from its free bits and the entry's fixed ones. -/
theorem free_or_key_of_hits {w : Word} {e : Entry} (h : e.hits w = true) : (w &&& ~~~e.mask) ||| e.key = w := by
  simp only [Entry.hits, beq_iff_eq] at h
  rw [← h, ← BitVec.and_or_distrib_left, BitVec.or_comm, BitVec.or_not_self, BitVec.and_allOnes]

theorem encode_decodeWord (w : Word) : encode (decodeWord w) = w := by
  obtain ⟨hkey, hmask⟩ := entry_action_key_mask _ (select_mem w)
  rw [decodeWord, encode_build, hkey, hmask, free_or_key_of_hits (select_hits w)]

/-! ## Decoded instructions are well-formed -/

theorem evenOffset_immB (w : Word) : evenOffset (immB w) = true := by
  simp only [evenOffset, immB, BitVec.getLsbD_append]
  rfl

theorem evenOffset_immJ (w : Word) : evenOffset (immJ w) = true := by
  simp only [evenOffset, immJ, BitVec.getLsbD_append]
  rfl

theorem wellFormed_build {m : Mnemonic} (w : Word) (hm : m ≠ .inv) : (build m w).wellFormed = true := by
  cases m with
  | beq | bne | blt | bge | bltu | bgeu => exact evenOffset_immB w
  | jal => exact evenOffset_immJ w
  | inv => exact absurd rfl hm
  | _ => rfl

theorem action_ne_inv_of_mem_rows : ∀ e ∈ rows, e.action ≠ .inv := by decide

theorem decodeWord_of_unmatched {w : Word} (h : unmatched w = true) : decodeWord w = .inv w := by
  rw [decodeWord, select_eq_catchAll h]
  rfl

theorem wellFormed_decodeWord (w : Word) : (decodeWord w).wellFormed = true := by
  rcases select_cases w with hrow | ⟨hnone, _⟩
  · exact wellFormed_build w (action_ne_inv_of_mem_rows _ hrow)
  · rw [decodeWord_of_unmatched hnone]
    exact hnone

/-- Settles O8: a word is its free bits and the fixed bits of the entry it selects. -/
theorem encodeOfDecode : Obligations.EncodeOfDecode := fun w =>
  ⟨wellFormed_decodeWord w, encode_decodeWord w⟩

/-! ## Decoding what was encoded -/

/-- The operands are cut out of the encoded word again. -/
theorem build_encode {i : Instr} (h : i.wellFormed = true) : build i.mnemonic (encode i) = i := by
  cases i with
  | beq | bne | blt | bge | bltu | bgeu => simp only [Instr.mnemonic, build, encode, encodeB_fields _ _ _ _ _ h]
  | jal => simp only [Instr.mnemonic, build, encode, encodeJ_fields _ _ _ h]
  | jalr | lb | lh | lw | lbu | lhu | addi | slti | sltiu | xori | ori | andi =>
    simp only [Instr.mnemonic, build, encode, encodeI_fields]
  | slli | srli | srai => simp only [Instr.mnemonic, build, encode, encodeI_fields, encodeI_shamt]
  | sb | sh | sw => simp only [Instr.mnemonic, build, encode, encodeS_fields]
  | add | sub | sll | slt | sltu | xor | srl | sra | or | and | mul | mulh | mulhsu | mulhu | div | divu | rem
  | remu => simp only [Instr.mnemonic, build, encode, encodeR_fields]
  | lui | auipc => simp only [Instr.mnemonic, build, encode, encodeU_fields]
  | nemuTrap | inv => rfl

theorem exists_row {m : Mnemonic} (hm : m ≠ .inv) : ∃ e ∈ rows, e.action = m := by
  refine List.mem_map.mp ?_
  revert hm
  cases m <;> decide

/-- An entry's key lies under its mask. -/
theorem key_and_mask_eq_key : ∀ e ∈ patternTable, e.key &&& e.mask = e.key := by decide

/-- The word of an instruction matches the row of its mnemonic, since encoding it put that row's fixed bits there. -/
theorem hits_encode {i : Instr} (h : i.wellFormed = true) {e : Entry} (he : e ∈ rows)
    (hm : e.action = i.mnemonic) : e.hits (encode i) = true := by
  have hmem : e ∈ patternTable := List.mem_append_left _ he
  obtain ⟨hkey, hmask⟩ := entry_action_key_mask e hmem
  have hparts : encode i = (encode i &&& ~~~e.mask) ||| e.key := by
    rw [← hkey, ← hmask, hm, ← encode_build, build_encode h]
  refine hits_of_mask (v := e.key) ?_ rfl
  rw [hparts]
  simp [BitVec.and_or_distrib_right, BitVec.and_assoc, key_and_mask_eq_key e hmem]

theorem exists_word_of_mnemonic_inv {i : Instr} (h : i.mnemonic = .inv) : ∃ w, i = .inv w := by
  cases i with
  | inv w => exact ⟨w, rfl⟩
  | _ => cases h

/-- Settles O7: the encoded word selects the row of the instruction's mnemonic, or none if it is an `inv`. -/
theorem decodeOfEncode : Obligations.DecodeOfEncode := by
  intro i h
  by_cases hinv : i.mnemonic = .inv
  · obtain ⟨w, rfl⟩ := exists_word_of_mnemonic_inv hinv
    exact decodeWord_of_unmatched h
  · obtain ⟨e, he, hm⟩ := exists_row hinv
    rw [decodeWord, select_eq_of_hits he (hits_encode h he hm), hm, build_encode h]

/-! ## The catch-all and the trap -/

@[simp] theorem build_mnemonic (m : Mnemonic) (w : Word) : (build m w).mnemonic = m := by
  cases m <;> rfl

theorem decodeWord_eq_inv {w v : Word} (h : decodeWord w = .inv v) : unmatched w = true ∧ v = w := by
  rcases select_cases w with hrow | ⟨hnone, _⟩
  · have hm : (select w).action = .inv := (build_mnemonic _ w).symm.trans (congrArg Instr.mnemonic h)
    exact absurd hm (action_ne_inv_of_mem_rows _ hrow)
  · exact ⟨hnone, (Instr.inv.inj ((decodeWord_of_unmatched hnone).symm.trans h)).symm⟩

theorem unmatched_iff {w : Word} : unmatched w = true ↔ ∀ e ∈ rows, e.hits w = false := by
  simp [unmatched]

/-- Settles O12: an `inv` is decoded from exactly the unmatched words, and the trap's word is the one it encodes to. -/
theorem catchAllTakesUnmatchedWords : Obligations.CatchAllTakesUnmatchedWords := by
  intro w
  refine ⟨⟨fun h => unmatched_iff.mp (decodeWord_eq_inv h).1,
    fun h => decodeWord_of_unmatched (unmatched_iff.mpr h)⟩, fun v h => (decodeWord_eq_inv h).2, fun h => ?_, ?_⟩
  · rw [← encode_decodeWord w, h]
    rfl
  · rintro rfl
    exact decodeOfEncode .nemuTrap rfl

/-! ## Instructions from bytes -/

theorem ofNat_ofBytesLE_encodeBytes (i : Instr) : BitVec.ofNat 32 (ofBytesLE (encodeBytes i)) = encode i := by
  rw [encodeBytes, Machine.ofBytesLE_toBytesLE, Nat.mod_eq_of_lt (encode i).isLt, BitVec.ofNat_toNat,
    BitVec.setWidth_eq]

/-- Settles O9: the four bytes are the encoded word's, and only a list shorter than four lacks one of them. -/
theorem bytesDecodeToInstruction : Obligations.BytesDecodeToInstruction := by
  refine ⟨fun i rest h => ?_, fun bs => ?_⟩
  · show Except.ok (decodeWord (BitVec.ofNat 32 (ofBytesLE (encodeBytes i))), rest) = _
    rw [ofNat_ofBytesLE_encodeBytes, decodeOfEncode i h]
  · match bs with
    | [] | [_] | [_, _] | [_, _, _] => simp [decode]
    | _ :: _ :: _ :: _ :: _ => simp [decode]

end Sys2Proof


/-!
PROOFS. The step: its two descriptions agree, when it completes, what it commits, and which causes end the run
(40_extractor_and_operands.md R84 to R92; 41_matcher_and_driver.md R102 to R116; 60_exceptions.md R240 to R250).
-/

namespace Sys2Proof.Machine

/-! ## The table's actions are the decoded instruction's -/

theorem action_tag : ∀ e ∈ patternTable, e.tag = e.action.tag := by decide

/-- The rows of the shifts with an immediate fix inst[31:25], and differ there as R53 says. -/
theorem shift_rows : ∀ e ∈ patternTable,
    (e.action = .slli ∨ e.action = .srli →
      e.mask.extractLsb' 25 7 = BitVec.allOnes 7 ∧ e.key.extractLsb' 25 7 = 0b0000000#7) ∧
    (e.action = .srai →
      e.mask.extractLsb' 25 7 = BitVec.allOnes 7 ∧ e.key.extractLsb' 25 7 = 0b0100000#7) := by decide

/-- The immediate of format I is inst[31:25] over the shift amount. -/
theorem immI_eq_append (w : Word) : immI w = w.extractLsb' 25 7 ++ shamtField w := by
  refine BitVec.eq_of_getLsbD_eq fun k hk => ?_
  simp only [immI, shamtField, BitVec.getLsbD_append, BitVec.getLsbD_extractLsb']
  interval_cases k <;> rfl

theorem immI_of_shift {w : Word} (h : (select w).action = .slli ∨ (select w).action = .srli) :
    immI w = shiftImm (shamtField w) := by
  obtain ⟨hmask, hkey⟩ := (shift_rows _ (select_mem w)).1 h
  rw [immI_eq_append, ← key_field_of_hits (select_hits w) 25 7 hmask, hkey, shiftImm]

theorem immI_of_srai {w : Word} (h : (select w).action = .srai) : immI w = shiftImmArith (shamtField w) := by
  obtain ⟨hmask, hkey⟩ := (shift_rows _ (select_mem w)).2 h
  rw [immI_eq_append, ← key_field_of_hits (select_hits w) 25 7 hmask, hkey, shiftImmArith]

/-- The multiplexer gives the operands of the decoded instruction. -/
theorem decodeOperand_select (w : Word) (s : State) :
    decodeOperand w (select w).tag s = s.operandsOf (decodeWord w) := by
  rw [action_tag _ (select_mem w), decodeWord]
  cases hm : (select w).action with
  | beq | bne | blt | bge | bltu | bgeu => exact decodeOperand_b w s
  | jal => exact decodeOperand_j w s
  | jalr | lb | lh | lw | lbu | lhu | addi | slti | sltiu | xori | ori | andi => exact decodeOperand_i w s
  | sb | sh | sw => exact decodeOperand_s w s
  | slli => exact (decodeOperand_i w s).trans (congrArg _ (immI_of_shift (.inl hm)))
  | srli => exact (decodeOperand_i w s).trans (congrArg _ (immI_of_shift (.inr hm)))
  | srai => exact (decodeOperand_i w s).trans (congrArg _ (immI_of_srai hm))
  | lui | auipc => exact decodeOperand_u w s
  | nemuTrap | inv => exact decodeOperand_n w s
  | _ => exact decodeOperand_r w s

/-- Each action over the instruction's own operands is the instruction's meaning. -/
theorem runAction_operandsOf_build (m : Mnemonic) (w : Word) (s : State) :
    runAction m (s.operandsOf (build m w)) (rdField w) s = exec (build m w) s := by
  cases m <;> rfl

theorem executeByTable_eq (w : Word) (s : State) : executeByTable w s = executeWord w s := by
  simp only [executeByTable, executeWord, decodeOperand_select]
  rw [decodeWord, runAction_operandsOf_build]

/-- Settles O21: the two steps differ only in how they execute the fetched word. -/
theorem tableStepIsStep : Obligations.TableStepIsStep := by
  intro s hr
  simp only [step_of_running hr, execOnceByTable, execOnce, decodeStep, executeByTable_eq]

/-! ## The fetch -/

theorem Memory.readBytes_two (m : Memory) (a : Word) :
    m.readBytes a 2 = [m.byteAt a.toNat, m.byteAt (a + 1#32).toNat] := rfl

theorem Memory.readBytes_four (m : Memory) (a : Word) :
    m.readBytes a 4 = [m.byteAt a.toNat, m.byteAt (a + 1#32).toNat, m.byteAt (a + 2#32).toNat,
      m.byteAt (a + 3#32).toNat] := by
  simp [Memory.readBytes, BitVec.add_assoc]

/-- The fetched word is the little-endian word at the cursor (R31, R37). -/
theorem State.fetchedWord_eq (s : State) : s.fetchedWord =
    s.byte (s.snpc + 3#32) ++ s.byte (s.snpc + 2#32) ++ s.byte (s.snpc + 1#32) ++ s.byte s.snpc := by
  rw [fetchedWord, Memory.readBytes_four, ofBytesLE_four, BitVec.ofNat_toNat, BitVec.setWidth_eq]
  rfl

/-- Settles O23: an admitted fetch is the word at the cursor, a refused one raises its fault and does nothing else. -/
theorem fetchReadsWordOrFaults : Obligations.FetchReadsWordOrFaults := by
  intro s
  refine ⟨fun h => ?_, fun h hcursor => ?_⟩
  · rw [State.fetch_admitted s h, State.fetchedWord_eq]
  · simp only [decodeStep, State.fetch_refused s h]
    exact congrArg (fun a => Host.Outcome.next (s.raise (.memFault .fetch a .four))) hcursor

/-! ## Steps that complete -/

/-- Settles O25: a refused fetch and an action both answer a next state. -/
theorem runningStepAnswersNext : Obligations.RunningStepAnswersNext := by
  intro s hr
  rcases step_running s hr with ⟨_, hraise⟩ | ⟨_, t, _, _, _, hfinish⟩
  · exact ⟨_, hraise⟩
  · exact ⟨_, hfinish⟩

/-- Settles O24: `step` answers `runOver`, so no run gets past it; a new run is a reset by definition. -/
theorem noStepAfterTerminalCondition : Obligations.NoStepAfterTerminalCondition := by
  intro s c hc
  have hstep : step s = .fault (.runOver c) := by simp only [step, hc]
  refine ⟨hstep, fun k t hrun => ?_, fun _ _ => rfl⟩
  rw [run_of_step_fault k hstep] at hrun
  cases hrun

/-- The state that the action of a fetched word starts from (R109). -/
def State.actionStart (s : State) : State := { s with snpc := s.pc + 4#32, dnpc := s.pc + 4#32 }

@[simp] theorem State.actionStart_snpc (s : State) : s.actionStart.snpc = s.pc + 4#32 := rfl
@[simp] theorem State.actionStart_dnpc (s : State) : s.actionStart.dnpc = s.pc + 4#32 := rfl
@[simp] theorem State.actionStart_status (s : State) : s.actionStart.status = s.status := rfl
@[simp] theorem State.actionStart_mem (s : State) : s.actionStart.mem = s.mem := rfl
@[simp] theorem State.actionStart_params (s : State) : s.actionStart.params = s.params := rfl
@[simp] theorem State.readReg_actionStart (s : State) (r : Reg) : s.actionStart.readReg r = s.readReg r := rfl

/-- What a step that answers a next state did: the fetch was refused, or the fetched word's action ran, and steps
5 and 6 and the commit followed. -/
theorem step_cases {s t : State} (h : step s = .next t) :
    (s.admits .fetch s.pc .four = false ∧ t = (s.setCursor.raise (.memFault .fetch s.pc .four)).releasePcs) ∨
    (s.admits .fetch s.pc .four = true ∧ ∃ u,
      exec (decodeWord s.setCursor.fetchedWord) s.actionStart = .next u ∧
      ActionAnswer (decodeWord s.setCursor.fetchedWord) s.actionStart u ∧ t = u.finishStep.commit) := by
  rcases step_running s (running_of_step h) with ⟨ha, hraise⟩ | ⟨ha, u, _, hexec, hans, hfinish⟩
  · exact .inl ⟨ha, (Host.Outcome.next.inj (hraise.symm.trans h)).symm⟩
  · exact .inr ⟨ha, u, hexec, hans, (Host.Outcome.next.inj (hfinish.symm.trans h)).symm⟩

theorem State.setCursor_fetch_admitted {s : State} (h : s.admits .fetch s.pc .four = true) :
    s.setCursor.fetch = .ok (s.setCursor.fetchedWord, { s with snpc := s.pc + 4#32 }) :=
  State.fetch_admitted s.setCursor h

theorem State.setCursor_fetch_refused {s : State} (h : s.admits .fetch s.pc .four = false) :
    s.setCursor.fetch = .error (.memFault .fetch s.pc .four) :=
  State.fetch_refused s.setCursor h

/-- A fetch from the cursor at `pc` that answers was admitted, and answers the word there. -/
theorem State.setCursor_fetch_ok {s u : State} {w : Word} (h : s.setCursor.fetch = .ok (w, u)) :
    s.admits .fetch s.pc .four = true ∧ w = s.setCursor.fetchedWord ∧ u = { s with snpc := s.pc + 4#32 } := by
  cases ha : s.admits .fetch s.pc .four with
  | true =>
    cases (setCursor_fetch_admitted ha).symm.trans h
    exact ⟨rfl, rfl, rfl⟩
  | false => cases (setCursor_fetch_refused ha).symm.trans h

/-- Settles O22: the four bytes are the fetched word's, and `step` runs what it decodes to. -/
theorem stepRunsDecodedInstruction : Obligations.StepRunsDecodedInstruction := by
  intro s i hr ha hdecode
  have hi : decodeWord s.setCursor.fetchedWord = i := by
    rw [State.fetchedWord, Memory.readBytes_four]
    exact congrArg Prod.fst (Except.ok.inj hdecode)
  rcases step_running s hr with ⟨hrefused, _⟩ | ⟨_, t, _, hexec, _, hfinish⟩
  · exact absurd (ha.symm.trans hrefused) (by decide)
  · rw [hi] at hexec
    rw [hfinish, hexec, mapNext_next, mapNext_next]

/-! ## The program counters -/

/-- Settles O31: the frame of an action, and the default that step 2 sets. -/
theorem onlyTransfersOverrideDnpc : Obligations.OnlyTransfersOverrideDnpc := by
  refine ⟨fun i s t ht hexec => (exec_answer hexec).dnpc_eq ht, fun s _ w u hfetch => ?_⟩
  obtain ⟨_, _, rfl⟩ := State.setCursor_fetch_ok hfetch
  exact ⟨rfl, rfl⟩

/-- Settles O26: a step that Continue ends committed the `dnpc` of its action. -/
theorem continueCommitsDnpc : Obligations.ContinueCommitsDnpc := by
  intro s t hstep hr
  rcases step_cases hstep with ⟨_, rfl⟩ | ⟨ha, u, _, hans, rfl⟩
  · cases hr
  · have hu : u.finishStep.status = .running := by simpa using hr
    rw [State.commit_running _ hu]
    refine ⟨rfl, by simpa using hans.snpc_eq, _, _, State.setCursor_fetch_admitted ha, fun ht => ?_⟩
    simpa using hans.dnpc_eq ht

/-- Settles O27: both branches of a step start from a state in which the old `snpc` and `dnpc` are overwritten. -/
theorem stepIgnoresOldCursors : Obligations.StepIgnoresOldCursors := by
  intro s a b
  by_cases hr : s.status = .running
  · rcases step_running { s with snpc := a, dnpc := b } hr with ⟨ha, hraise⟩ | ⟨ha, u, _, hexec, _, hfinish⟩
    · rcases step_running s hr with ⟨_, hraise'⟩ | ⟨ha', _⟩
      · exact hraise.trans hraise'.symm
      · exact absurd (ha'.symm.trans ha) (by decide)
    · rcases step_running s hr with ⟨ha', _⟩ | ⟨_, u', _, hexec', _, hfinish'⟩
      · exact absurd (ha.symm.trans ha') (by decide)
      · cases hexec.symm.trans hexec'
        exact hfinish.trans hfinish'.symm
  · cases hs : s.status with
    | running => exact absurd hs hr
    | terminated c => simp only [step, hs]

/-! ## Terminal conditions -/

/-- The causes of a terminal condition that lie in the instruction (R241 to R243). -/
inductive RaisedBy (i : Instr) (s : State) : Condition → Prop where
  | trap (hi : i = .nemuTrap) : RaisedBy i s (.ended s.pc (s.readReg Config.retReg))
  | invalid (w : Word) (hi : i = .inv w) : RaisedBy i s (.invalid s.pc)
  | refused (kind : AccessKind) (n : AccessLen) (hx : dataAccess i = some (kind, n))
      (ha : s.admits kind (effectiveAddr (s.operandsOf i)) n = false) :
      RaisedBy i s (.memFault kind (effectiveAddr (s.operandsOf i)) n)

/-- An action that ends the run of a running machine raises a condition for its cause and does nothing else. -/
theorem ActionAnswer.raised {i : Instr} {s t : State} {c : Condition} (h : ActionAnswer i s t)
    (hr : s.status = .running) (hc : t.status = .terminated c) : t = s.raise c ∧ RaisedBy i s c := by
  cases h with
  | register | link | jump | fall | stored => simp [hr] at hc
  | refused kind a n ht hx hadr ha =>
    cases hc
    subst hadr
    exact ⟨rfl, .refused kind n hx ha⟩
  | trap hi =>
    cases hc
    exact ⟨rfl, .trap hi⟩
  | invalid w hi =>
    cases hc
    exact ⟨rfl, .invalid w hi⟩

/-- A load or store whose access is refused raises the fault and does nothing else (R149, R243). -/
theorem exec_refused {i : Instr} {s : State} {kind : AccessKind} {n : AccessLen} (hx : dataAccess i = some (kind, n))
    (ha : s.admits kind (effectiveAddr (s.operandsOf i)) n = false) :
    exec i s = .next (s.raise (.memFault kind (effectiveAddr (s.operandsOf i)) n)) := by
  cases i with
  | lb | lh | lw | lbu | lhu =>
    cases hx
    exact congrArg Host.Outcome.next (State.load_refused s _ _ ha)
  | sb | sh | sw =>
    cases hx
    exact congrArg Host.Outcome.next (State.store_refused s _ ha)
  | _ => cases hx

theorem RaisedBy.exec_eq {i : Instr} {s : State} {c : Condition} (h : RaisedBy i s c) :
    exec i s = .next (s.raise c) := by
  cases h with
  | trap hi => exact hi ▸ rfl
  | invalid w hi => exact hi ▸ rfl
  | refused kind n hx ha => exact exec_refused hx ha

/-- Settles O28: the step only raised, and step 5 clears a register that was already zero. -/
theorem terminalConditionsArePrecise : Obligations.TerminalConditionsArePrecise := by
  intro s t c hzero hstep hc
  have hr := running_of_step hstep
  rcases step_cases hstep with ⟨_, rfl⟩ | ⟨_, u, _, hans, rfl⟩
  · exact ⟨fun _ => rfl, rfl, rfl⟩
  · obtain ⟨rfl, _⟩ := hans.raised hr (by simpa using hc)
    refine ⟨fun r => ?_, by simp, by simp⟩
    rw [State.readReg_commit, State.readReg_finishStep, State.readReg_raise, State.readReg_actionStart]
    split
    · next h => rw [h.2, hzero]
    · rfl

/-- The causes of a condition, when the fetch is served, are those of the fetched word's instruction. -/
theorem causedBy_of_admitted {s : State} {c : Condition} (ha : s.admits .fetch s.pc .four = true) :
    CausedBy s c ↔ RaisedBy (decodeWord s.setCursor.fetchedWord) s.actionStart c := by
  constructor
  · rintro (⟨hrefused, _⟩ | ⟨w, u, hfetch, hcause⟩)
    · exact absurd (ha.symm.trans hrefused) (by decide)
    · obtain ⟨_, rfl, _⟩ := State.setCursor_fetch_ok hfetch
      rcases hcause with ⟨hi, rfl⟩ | ⟨hi, rfl⟩ | ⟨kind, n, a, hx, hadm, rfl, rfl⟩
      · exact .trap hi
      · exact .invalid _ hi
      · rw [decodeOperand_select] at hadm ⊢
        exact .refused kind n hx hadm
  · intro h
    refine .inr ⟨_, _, State.setCursor_fetch_admitted ha, ?_⟩
    cases h with
    | trap hi => exact .inl ⟨hi, rfl⟩
    | invalid w hi =>
      obtain ⟨_, rfl⟩ := decodeWord_eq_inv hi
      exact .inr (.inl ⟨hi, rfl⟩)
    | refused kind n hx hadm =>
      refine .inr (.inr ⟨kind, n, _, hx, hadm, ?_, rfl⟩)
      rw [decodeOperand_select]
      rfl

theorem causedBy_of_refused {s : State} {c : Condition} (ha : s.admits .fetch s.pc .four = false) :
    CausedBy s c ↔ c = .memFault .fetch s.pc .four := by
  constructor
  · rintro (⟨_, hc⟩ | ⟨w, u, hfetch, _⟩)
    · exact hc
    · exact absurd ((State.setCursor_fetch_ok hfetch).1.symm.trans ha) (by decide)
  · exact fun hc => .inl ⟨ha, hc⟩

/-- Settles O29: a refused fetch is a cause by itself; otherwise the causes are those of the instruction, each of
which makes its action raise. -/
theorem terminalConditionsHaveCauses : Obligations.TerminalConditionsHaveCauses := by
  intro s t c hr hstep
  rcases step_cases hstep with ⟨ha, rfl⟩ | ⟨ha, u, hexec, hans, rfl⟩
  · rw [causedBy_of_refused ha]
    exact ⟨fun h => (RunStatus.terminated.inj h).symm, fun h => h ▸ rfl⟩
  · rw [causedBy_of_admitted ha, State.commit_status, State.finishStep_status]
    refine ⟨fun h => (hans.raised hr h).2, fun h => ?_⟩
    cases hexec.symm.trans h.exec_eq
    rfl

end Sys2Proof.Machine


/-!
PROOFS. The named interface values (10_state.md R23) account for a step.
-/

namespace Sys2Proof.Machine

/-! ## What the run status says at the ports -/

theorem endSignal_eq_some {r : RunStatus} {a code : Word} :
    endSignal r = some (a, code) ↔ r = .terminated (.ended a code) := by
  rcases r with _ | (_ | _ | _) <;> simp [endSignal]

theorem invalidSignal_eq_some {r : RunStatus} {a : Word} :
    invalidSignal r = some a ↔ r = .terminated (.invalid a) := by
  rcases r with _ | (_ | _ | _) <;> simp [invalidSignal]

/-- A run goes on unless there is a memory fault or a signal. -/
theorem running_iff_no_fault_no_signal {r : RunStatus} :
    r = .running ↔
      (∀ kind a n, r ≠ .terminated (.memFault kind a n)) ∧ endSignal r = none ∧ invalidSignal r = none := by
  rcases r with _ | (_ | _ | _) <;> simp [endSignal, invalidSignal]

theorem State.reachesStep5_iff {s : State} :
    s.reachesStep5 = true ↔ ∀ kind a n, s.status ≠ .terminated (.memFault kind a n) := by
  rcases h : s.status with _ | (_ | _ | _) <;> simp [State.reachesStep5, h]

/-! ## One action, for every destination index -/

/-- The write of a register if there is a value to write. -/
def State.writeIf (s : State) (rd : Reg) (v : Option Word) : State :=
  match v with
  | some x => s.writeReg rd x
  | none => s

section
variable (s : State) (rd : Reg) (v : Option Word)

@[simp] theorem State.writeIf_snpc : (s.writeIf rd v).snpc = s.snpc := by cases v <;> simp [State.writeIf]
@[simp] theorem State.writeIf_dnpc : (s.writeIf rd v).dnpc = s.dnpc := by cases v <;> simp [State.writeIf]
@[simp] theorem State.writeIf_status : (s.writeIf rd v).status = s.status := by cases v <;> simp [State.writeIf]
@[simp] theorem State.writeIf_mem : (s.writeIf rd v).mem = s.mem := by cases v <;> simp [State.writeIf]

/-- The write port accounts for every register but 0. -/
theorem State.some_readReg_writeIf {r : Reg} (hr : r ≠ 0) : some ((s.writeIf rd v).readReg r) =
    if v.isSome = true ∧ some rd = some r then v else some (s.readReg r) := by
  cases v with
  | none => simp [State.writeIf]
  | some x =>
    by_cases h : rd = r
    · subst h
      simp [State.writeIf, State.readReg_writeReg, hr]
    · simp [State.writeIf, State.readReg_writeReg, h, Ne.symm h]

end

/-- The action of `m` over `o` sends `v` to the write port, and leaves `t` apart from that write, whatever index it
writes; `t` differs from `s` as the request and the signals say. -/
structure Exchange (m : Mnemonic) (o : Bundle) (s : State) (v : Option Word) (t : State) : Prop where
  answer : ∀ rd, runAction m o rd s = .next (t.writeIf rd v)
  sends : v.isSome = (formatWrites m.tag && !s.refusesReq (memRequest m o))
  regs : ∀ r, t.readReg r = s.readReg r
  mem : t.mem = (memRequest m o).after (s.refusesReq (memRequest m o)) s.mem
  fault : s.status = .running → ∀ kind a n, t.status = .terminated (.memFault kind a n) ↔
    s.refusesReq (memRequest m o) = true ∧ (memRequest m o).access = some (kind, a, n)

section
variable {m : Mnemonic} {o : Bundle} {s : State}

/-- A request that is not refused goes with no fault, as long as the run goes on. -/
theorem no_fault_of_running {t : State} {q : MemReq} (hq : s.refusesReq q = false) (ht : t.status = s.status)
    (hr : s.status = .running) (kind : AccessKind) (a : Word) (n : AccessLen) :
    t.status = .terminated (.memFault kind a n) ↔ s.refusesReq q = true ∧ q.access = some (kind, a, n) := by
  simp [ht, hr, hq]

theorem exchange_of_write {v : Word} (h : ∀ rd, runAction m o rd s = .next (s.writeReg rd v))
    (hm : formatWrites m.tag = true) (hq : memRequest m o = .none) : Exchange m o s (some v) s where
  answer := h
  sends := by simp [hm, hq, State.refusesReq]
  regs _ := rfl
  mem := by simp [hq, MemReq.after]
  fault := no_fault_of_running (by simp [hq, State.refusesReq]) rfl

theorem State.writeReg_setDnpc (s : State) (rd : Reg) (v a : Word) :
    (s.writeReg rd v).setDnpc a = (s.setDnpc a).writeReg rd v := by
  unfold State.writeReg; split <;> rfl

theorem exchange_of_link {v a : Word} (h : ∀ rd, runAction m o rd s = .next ((s.writeReg rd v).setDnpc a))
    (hm : formatWrites m.tag = true) (hq : memRequest m o = .none) : Exchange m o s (some v) (s.setDnpc a) where
  answer rd := by rw [h, State.writeReg_setDnpc]; rfl
  sends := by simp [hm, hq, State.refusesReq]
  regs _ := rfl
  mem := by simp [hq, MemReq.after]
  fault := no_fault_of_running (by simp [hq, State.refusesReq]) rfl

theorem exchange_of_branch {taken : Bool} (h : ∀ rd, runAction m o rd s = .next (s.branchIf taken o))
    (hm : formatWrites m.tag = false) (hq : memRequest m o = .none) : Exchange m o s none (s.branchIf taken o) where
  answer := h
  sends := by simp [hm]
  regs _ := by cases taken <;> rfl
  mem := by cases taken <;> simp [hq, MemReq.after, State.branchIf]
  fault := no_fault_of_running (by simp [hq, State.refusesReq]) (by cases taken <;> rfl)

theorem exchange_of_signal {c : Condition} (h : ∀ rd, runAction m o rd s = .next (s.raise c))
    (hm : formatWrites m.tag = false) (hq : memRequest m o = .none) (hc : ∀ kind a n, c ≠ .memFault kind a n) :
    Exchange m o s none (s.raise c) where
  answer := h
  sends := by simp [hm]
  regs _ := rfl
  mem := by simp [hq, MemReq.after]
  fault _ kind a n := by simp [hc, hq, State.refusesReq]

/-- A refused request is answered by its fault alone. -/
theorem exchange_of_refused {kind : AccessKind} {a : Word} {n : AccessLen}
    (h : ∀ rd, runAction m o rd s = .next (s.raise (.memFault kind a n)))
    (hq : s.refusesReq (memRequest m o) = true) (hacc : (memRequest m o).access = some (kind, a, n)) :
    Exchange m o s none (s.raise (.memFault kind a n)) where
  answer := h
  sends := by simp [hq]
  regs _ := rfl
  mem := by rw [hq]; cases memRequest m o <;> rfl
  fault _ kind' a' n' := by simp [hq, hacc]

theorem exchange_of_load {n : AccessLen} {f : Nat → Word}
    (h : ∀ rd, runAction m o rd s = .next (s.load rd (effectiveAddr o) n f))
    (hm : formatWrites m.tag = true) (hq : memRequest m o = .read (effectiveAddr o) n Config.memMode) :
    ∃ v t, Exchange m o s v t := by
  cases ha : s.admits .read (effectiveAddr o) n with
  | false =>
    exact ⟨_, _, exchange_of_refused (fun rd => (h rd).trans (congrArg _ (State.load_refused s rd f ha)))
      (by simp [hq, State.refusesReq, ha]) (by rw [hq]; rfl)⟩
  | true =>
    have hread := State.memRead_admitted s ha
    exact ⟨some _, s,
      { answer := fun rd => (h rd).trans (congrArg _ (State.load_of_read s rd f hread))
        sends := by simp [hm, hq, State.refusesReq, ha]
        regs := fun _ => rfl
        mem := by simp [hq, MemReq.after]
        fault := no_fault_of_running (by simp [hq, State.refusesReq, ha]) rfl }⟩

theorem exchange_of_store {n : AccessLen} {x : Nat}
    (h : ∀ rd, runAction m o rd s = .next (s.store (effectiveAddr o) n x))
    (hm : formatWrites m.tag = false) (hq : memRequest m o = .write (effectiveAddr o) n x Config.memMode) :
    ∃ v t, Exchange m o s v t := by
  cases ha : s.admits .write (effectiveAddr o) n with
  | false =>
    exact ⟨_, _, exchange_of_refused (fun rd => (h rd).trans (congrArg _ (State.store_refused s x ha)))
      (by simp [hq, State.refusesReq, ha]) (by rw [hq]; rfl)⟩
  | true =>
    exact ⟨none, _,
      { answer := fun rd => (h rd).trans (congrArg _ (State.store_admitted s x ha))
        sends := by simp [hm]
        regs := fun _ => rfl
        mem := by simp [hq, MemReq.after, State.refusesReq, ha]
        fault := no_fault_of_running (by simp [hq, State.refusesReq, ha]) rfl }⟩

end

/-- Every action of the table is such an exchange. -/
theorem exists_exchange (m : Mnemonic) (o : Bundle) (s : State) : ∃ v t, Exchange m o s v t := by
  cases m with
  | beq | bne | blt | bge | bltu | bgeu => exact ⟨_, _, exchange_of_branch (fun _ => rfl) rfl rfl⟩
  | jal | jalr => exact ⟨_, _, exchange_of_link (fun _ => rfl) rfl rfl⟩
  | lb | lh | lw | lbu | lhu => exact exchange_of_load (fun _ => rfl) rfl rfl
  | sb | sh | sw => exact exchange_of_store (fun _ => rfl) rfl rfl
  | nemuTrap | inv => exact ⟨_, _, exchange_of_signal (fun _ => rfl) rfl rfl (by simp)⟩
  | _ => exact ⟨_, _, exchange_of_write (fun _ => rfl) rfl rfl⟩

theorem State.access_of_refusesReq {s : State} {q : MemReq} (h : s.refusesReq q = true) :
    ∃ kind a n, q.access = some (kind, a, n) := by
  cases q with
  | none => cases h
  | read a n => exact ⟨.read, a, n, rfl⟩
  | write a n => exact ⟨.write, a, n, rfl⟩

/-- The run shows no fault exactly when the request was not refused. -/
theorem Exchange.no_fault_iff {m : Mnemonic} {o : Bundle} {s t : State} {v : Option Word} (h : Exchange m o s v t)
    (hr : s.status = .running) :
    (∀ kind a n, t.status ≠ .terminated (.memFault kind a n)) ↔ s.refusesReq (memRequest m o) = false := by
  simp only [ne_eq, h.fault hr]
  refine ⟨fun hno => ?_, fun hq => by simp [hq]⟩
  by_contra hq
  rw [Bool.not_eq_false] at hq
  obtain ⟨kind, a, n, hacc⟩ := State.access_of_refusesReq hq
  exact hno kind a n ⟨hq, hacc⟩

theorem Exchange.reachesStep5_writeIf {m : Mnemonic} {o : Bundle} {s t : State} {v : Option Word}
    (h : Exchange m o s v t) (hr : s.status = .running) (rd : Reg) :
    (t.writeIf rd v).reachesStep5 = true ↔ s.refusesReq (memRequest m o) = false := by
  rw [State.reachesStep5_iff, State.writeIf_status, h.no_fault_iff hr]

/-! ## The ports of a step -/

theorem State.ports_of_refused {s : State} (h : s.admits .fetch s.pc .four = false) :
    s.ports = s.portsOfFetchFault := by
  simp only [State.ports, State.setCursor_fetch_refused h]

theorem State.ports_of_admitted {s : State} (h : s.admits .fetch s.pc .four = true) :
    s.ports = s.actionStart.portsFor s.setCursor.fetchedWord := by
  simp only [State.ports, State.setCursor_fetch_admitted h]
  rfl

/-- The exchange of the entry that a word selects, over the operands of its tag. -/
abbrev WordExchange (w : Word) (s : State) (v : Option Word) (t : State) : Prop :=
  Exchange (select w).action (decodeOperand w (select w).tag s) s v t

section
variable {w : Word} {s t : State} {v : Option Word}

theorem WordExchange.exec_eq (h : WordExchange w s v t) :
    exec (decodeWord w) s = .next (t.writeIf (rdField w) v) := by
  rw [← h.answer, decodeOperand_select, decodeWord, runAction_operandsOf_build]

theorem WordExchange.afterAction_eq (h : WordExchange w s v t) :
    afterAction (select w).action (decodeOperand w (select w).tag s) 1 s = t.writeIf 1 v := by
  rw [afterAction, h.answer]

/-- What a word's ports show of its exchange. -/
structure PortsShow (p : Ports) (s : State) (rd : Reg) (q : MemReq) (v : Option Word) (t : State) : Prop where
  pc : p.pc = s.pc
  snpcOut : p.snpcOut = some s.snpc
  rfWe : p.rfWe = v.isSome
  rfWaddr : p.rfWaddr = some rd
  rfWdata : p.rfWdata = v
  rfZero : p.rfZero = !s.refusesReq q
  dnpc : p.dnpc = some t.dnpc
  memReq : p.memReq = q
  memFault : p.memFault = s.refusesReq q
  fetchFault : p.fetchFault = false
  signalEnd : p.signalEnd = endSignal t.status
  signalInvalid : p.signalInvalid = invalidSignal t.status
  status : p.status = if s.refusesReq q then none else some 0

theorem WordExchange.portsShow (h : WordExchange w s v t) :
    PortsShow (s.portsFor w) s (rdField w) (memRequest (select w).action (decodeOperand w (select w).tag s)) v t where
  pc := rfl
  snpcOut := rfl
  rfWe := by rw [h.sends, ← action_tag _ (select_mem w)]; rfl
  rfWaddr := rfl
  rfWdata := by
    have hsends := h.sends
    rw [← action_tag _ (select_mem w)] at hsends
    simp only [State.portsFor, ← hsends, h.afterAction_eq]
    cases v with
    | none => rfl
    | some x => simp [State.writeIf, State.readReg_writeReg]
  rfZero := rfl
  dnpc := by simp [State.portsFor, h.afterAction_eq]
  memReq := rfl
  memFault := rfl
  fetchFault := rfl
  signalEnd := by simp [State.portsFor, h.afterAction_eq]
  signalInvalid := by simp [State.portsFor, h.afterAction_eq]
  status := rfl

end

/-- Settles O30: a refused fetch shows at its own port; otherwise the fetched word's exchange accounts for the action,
and steps 5 and 6 and the commit for the rest. -/
theorem portsAccountForStep : Obligations.PortsAccountForStep := by
  intro s t hr hstep
  rcases step_cases hstep with ⟨ha, rfl⟩ | ⟨ha, u, hexec, hans, rfl⟩
  · rw [State.ports_of_refused ha, ha]
    refine ⟨rfl, rfl, fun _ => ⟨rfl, rfl, rfl⟩, fun _ _ => rfl, rfl, rfl, rfl, ?_, fun _ _ _ => ?_, fun _ _ => ?_,
      fun _ => ?_, nofun, rfl⟩
    all_goals simp [State.portsOfFetchFault, eq_comm]
  · rw [State.ports_of_admitted ha, ha]
    obtain ⟨v, x, hx⟩ : ∃ v x, WordExchange s.setCursor.fetchedWord s.actionStart v x := exists_exchange _ _ _
    have hp := hx.portsShow
    generalize s.actionStart.portsFor s.setCursor.fetchedWord = p at hp ⊢
    obtain rfl := Host.Outcome.next.inj (hexec.symm.trans hx.exec_eq)
    simp only [State.commit_status, State.finishStep_status, State.writeIf_status, hp.fetchFault, hp.memFault]
    refine ⟨hp.pc, rfl, nofun, fun r hne => ?_, ?_, ?_, ?_, ?_, fun kind a n => ?_, fun a code => ?_, fun a => ?_,
      fun hrun => ?_, ?_⟩
    · rw [State.readReg_commit, State.readReg_finishStep, if_neg (fun h => hne h.2),
        State.some_readReg_writeIf _ _ _ hne, hp.rfWe, hp.rfWaddr, hp.rfWdata, hx.regs, State.readReg_actionStart]
    · rw [State.readReg_commit, State.readReg_finishStep, hans.readReg_zero, hp.rfZero]
      simp [hx.reachesStep5_writeIf hr]
    · rw [State.commit_mem, State.finishStep_mem, State.writeIf_mem, hx.mem, hp.memReq, State.actionStart_mem]
    · simpa using hans.params_eq
    · rw [running_iff_no_fault_no_signal, hx.no_fault_iff hr, hp.signalEnd, hp.signalInvalid]
      simp
    · rw [hx.fault hr, hp.memReq]
      simp
    · rw [hp.signalEnd, endSignal_eq_some]
    · rw [hp.signalInvalid, invalidSignal_eq_some]
    · rw [State.commit_running _ (by simpa using hrun), hp.dnpc, hp.snpcOut]
      exact ⟨by simp, by simp, by simpa using hans.snpc_eq⟩
    · rw [hp.status]
      simp

end Sys2Proof.Machine


/-!
PROOFS. Loads, stores and the reference memory (20_memory.md R31 to R43; 43_loads_stores.md R140 to R149).
-/

namespace Sys2Proof.Machine

/-! ## Reads -/

/-- Settles O38: the bytes read are the one, two or four at the address, lowest first. -/
theorem readsAreLittleEndian : Obligations.ReadsAreLittleEndian := by
  intro s a
  refine ⟨fun h => ?_, fun h => ?_, fun h => ?_, fun n h => State.memRead_refused s h⟩ <;>
    rw [State.memRead_admitted s h, AccessLen.bytes]
  · simp [Memory.readBytes, ofBytesLE, State.byte]
  · rw [Memory.readBytes_two, ofBytesLE_two]
    rfl
  · rw [Memory.readBytes_four, ofBytesLE_four]
    rfl

/-- The value of an answered read fits its length (R32). -/
theorem State.memRead_lt {s : State} {a : Word} {n : AccessLen} {v : Nat} (h : s.memRead a n = .ok v) :
    v < 2 ^ (8 * AccessLen.bytes n) := by
  cases ha : s.admits .read a n with
  | true =>
    cases (State.memRead_admitted s ha).symm.trans h
    simpa using ofBytesLE_lt (s.mem.readBytes a (AccessLen.bytes n))
  | false => cases (State.memRead_refused s ha).symm.trans h

theorem State.memRead_error {s : State} {a : Word} {n : AccessLen} {c : Condition} (h : s.memRead a n = .error c) :
    s.admits .read a n = false ∧ c = .memFault .read a n := by
  cases ha : s.admits .read a n with
  | true => cases (State.memRead_admitted s ha).symm.trans h
  | false =>
    cases (State.memRead_refused s ha).symm.trans h
    exact ⟨rfl, rfl⟩

/-! ## Loads -/

/-- An action that is a load writes the widened value when the read is answered. -/
theorem does_of_load {i : Instr} {s : State} {rd : Reg} {a : Word} {n : AccessLen} {f : Nat → Word} {v : Nat}
    {w : Word} (hexec : exec i s = .next (s.load rd a n f)) (hv : s.memRead a n = .ok v) (hw : f v = w) :
    Does i s (writes rd w) :=
  does_of_writeReg_eq hw (hexec.trans (congrArg _ (State.load_of_read s rd f hv)))

/-- A load or store whose access is refused raises the fault. -/
theorem does_of_refused {i : Instr} {s : State} {kind : AccessKind} {a : Word} {n : AccessLen}
    (hx : dataAccess i = some (kind, n)) (hadr : effectiveAddr (s.operandsOf i) = a)
    (ha : s.admits kind a n = false) : Does i s (raises (.memFault kind a n)) := by
  subst hadr
  exact does_of_raise (exec_refused hx ha)

/-- `sign_extend` of a number is the sign extension of its low bits (R82). -/
theorem signExtend_eq_signExtend_ofNat {width : Nat} (v : Nat) (h1 : 1 ≤ width) (h2 : width ≤ 32) :
    signExtend v width = (BitVec.ofNat width v).signExtend 32 := by
  rw [← signExtend_toNat h1 h2, BitVec.toNat_ofNat, signExtend_mod]

/-- Zero extension of a number that fits. -/
theorem ofNat_eq_setWidth_ofNat {width v : Nat} (h : v < 2 ^ width) :
    BitVec.ofNat 32 v = (BitVec.ofNat width v).setWidth 32 := by
  rw [← BitVec.ofNat_toNat, BitVec.toNat_ofNat, Nat.mod_eq_of_lt h]

/-- Settles O37: an answered read is widened and written, a refused one raised. -/
theorem loadsWidenValueRead : Obligations.LoadsWidenValueRead := by
  rintro s rd rs1 imm a rfl
  refine ⟨fun v h => ⟨does_of_load rfl h ?_, does_of_load rfl h ?_⟩,
    fun v h => ⟨does_of_load rfl h ?_, does_of_load rfl h ?_⟩, fun v h => does_of_load rfl h rfl,
    fun c h => ?_, fun c h => ?_, fun c h => ?_⟩
  · exact signExtend_eq_signExtend_ofNat v (by decide) (by decide)
  · exact ofNat_eq_setWidth_ofNat (State.memRead_lt h)
  · exact signExtend_eq_signExtend_ofNat v (by decide) (by decide)
  · exact ofNat_eq_setWidth_ofNat (State.memRead_lt h)
  all_goals obtain ⟨ha, rfl⟩ := State.memRead_error h
  · exact ⟨rfl, does_of_refused rfl rfl ha, does_of_refused rfl rfl ha⟩
  · exact ⟨rfl, does_of_refused rfl rfl ha, does_of_refused rfl rfl ha⟩
  · exact ⟨rfl, does_of_refused rfl rfl ha⟩

/-- Settles O41: one rule holds for all eight accesses. -/
theorem refusedAccessChangesNothing : Obligations.RefusedAccessChangesNothing := by
  rintro s rd rs1 rs2 imm a rfl
  exact ⟨fun ha => ⟨does_of_refused rfl rfl ha, does_of_refused rfl rfl ha⟩,
    fun ha => ⟨does_of_refused rfl rfl ha, does_of_refused rfl rfl ha⟩, does_of_refused rfl rfl,
    does_of_refused rfl rfl, does_of_refused rfl rfl, does_of_refused rfl rfl⟩

/-! ## Stores -/

/-- An action that is a store stores its bytes when the write is served. -/
theorem does_of_store {i : Instr} {s : State} {a : Word} {n : AccessLen} {v : Nat} {bs : List Byte}
    (hexec : exec i s = .next (s.store a n v)) (hm : s.mem.wf) (ha : s.admits .write a n = true)
    (hbs : toBytesLE (AccessLen.bytes n) v = bs) : Does i s (stores a bs) := by
  subst hbs
  refine ⟨_, hexec.trans (congrArg _ (State.store_admitted s v ha)), stores_holds s hm a _ ?_⟩
  rw [toBytesLE_length]
  cases n <;> decide

/-- The low `n` bytes of a number depend on nothing above them. -/
theorem toBytesLE_mod (n v : Nat) : toBytesLE n (v % 2 ^ (8 * n)) = toBytesLE n v := by
  induction n generalizing v with
  | zero => rfl
  | succ n ih =>
    have hpow : 2 ^ (8 * (n + 1)) = 256 * 2 ^ (8 * n) := by rw [Nat.mul_add, Nat.pow_add]; omega
    have hlow : BitVec.ofNat 8 (v % (256 * 2 ^ (8 * n))) = BitVec.ofNat 8 v := by
      apply BitVec.eq_of_toNat_eq
      simp only [BitVec.toNat_ofNat, Nat.reducePow, Nat.mod_mul_right_mod]
    rw [toBytesLE, toBytesLE, hpow, hlow, Nat.mod_mul_right_div_self, ih]

/-- The bytes that a store of length `n` sends are the low ones of the register (R146 to R148). -/
theorem toBytesLE_field (w : Word) (n : Nat) (hn : 0 < n) :
    toBytesLE n (field w (8 * n - 1) 0) = toBytesLE n w.toNat := by
  rw [field, Nat.pow_zero, Nat.div_one, Nat.sub_zero, Nat.sub_add_cancel (by omega), toBytesLE_mod]

/-- The bytes of a word, lowest first, are its cuts of 8 bits. -/
theorem toBytesLE_four (w : Word) : toBytesLE 4 w.toNat =
    [w.extractLsb' 0 8, w.extractLsb' 8 8, w.extractLsb' 16 8, w.extractLsb' 24 8] := by
  simp only [toBytesLE, Nat.div_div_eq_div_mul, BitVec.extractLsb', Nat.shiftRight_eq_div_pow]
  norm_num

/-- Settles O39: the one byte stored is the low one of the source. -/
theorem storeByteStoresLowByte : Obligations.StoreByteStoresLowByte := by
  rintro s rs1 rs2 imm a rfl
  exact ⟨fun hm ha => does_of_store rfl hm ha ((toBytesLE_field _ 1 (by decide)).trans
    (congrArg (List.take 1) (toBytesLE_four _))), does_of_refused rfl rfl⟩

/-- Settles O40: the bytes stored are the low two, or all four, of the source. -/
theorem storeHalfAndWord : Obligations.StoreHalfAndWord := by
  intro s rs1 rs2 imm hm
  exact ⟨fun ha => does_of_store rfl hm ha ((toBytesLE_field _ 2 (by decide)).trans
      (congrArg (List.take 2) (toBytesLE_four _))),
    fun ha => does_of_store rfl hm ha ((toBytesLE_field _ 4 (by decide)).trans (toBytesLE_four _))⟩

/-! ## Reads after a store -/

/-- What `sw` answers when it is served. -/
theorem exec_sw_admitted {s t : State} {rs1 rs2 : Reg} {imm : BitVec 12}
    (ha : s.admits .write (s.readReg rs1 + imm.signExtend 32) .four = true)
    (hexec : exec (.sw rs1 rs2 imm) s = .next t) :
    t = { s with mem := s.mem.writeBytes (s.readReg rs1 + imm.signExtend 32) (toBytesLE 4 (s.readReg rs2).toNat) } := by
  have hstore : exec (.sw rs1 rs2 imm) s = .next _ := congrArg Host.Outcome.next (State.store_admitted s _ ha)
  rw [hexec] at hstore
  rw [← toBytesLE_field _ 4 (by decide)]
  exact Host.Outcome.next.inj hstore

/-- Four bytes read where a word was stored are the word's. -/
theorem readBytes_four_of_stored {m : Memory} (hm : m.wf) (a w : Word) :
    (m.writeBytes a (toBytesLE 4 w.toNat)).readBytes a 4 = toBytesLE 4 w.toNat := by
  have h := Memory.readBytes_writeBytes hm a (toBytesLE 4 w.toNat) (by simp)
  rwa [toBytesLE_length] at h

theorem ofNat_ofBytesLE_toBytesLE_four (w : Word) : BitVec.ofNat 32 (ofBytesLE (toBytesLE 4 w.toNat)) = w := by
  rw [ofBytesLE_toBytesLE, Nat.mod_eq_of_lt w.isLt, BitVec.ofNat_toNat, BitVec.setWidth_eq]

/-- Settles O43: the fetch reads the four bytes that `sw` stored. -/
theorem fetchSeesEarlierStore : Obligations.FetchSeesEarlierStore := by
  intro s t u rs1 rs2 imm hm ha hexec hmem hcursor hfetch
  rw [State.fetch_admitted u hfetch, State.fetchedWord, hmem, hcursor, exec_sw_admitted ha hexec,
    readBytes_four_of_stored hm, ofNat_ofBytesLE_toBytesLE_four]

/-- The k-th byte from the address of a stored word is the word's k-th byte, lowest first. -/
theorem byteAt_of_stored {m : Memory} (hm : m.wf) (a w : Word) {k : Nat} (hk : k < 4) :
    (m.writeBytes a (toBytesLE 4 w.toNat)).byteAt (a + BitVec.ofNat 32 k).toNat = w.extractLsb' (8 * k) 8 := by
  have hoff : (BitVec.ofNat 32 (a + BitVec.ofNat 32 k).toNat - a).toNat = k := by
    rw [BitVec.ofNat_toNat, BitVec.setWidth_eq, BitVec.add_comm, BitVec.add_sub_cancel, BitVec.toNat_ofNat]
    omega
  rw [Memory.byteAt_writeBytes hm a _ (by simp), hoff, if_pos ⟨BitVec.isLt _, by simpa using hk⟩, toBytesLE_four]
  interval_cases k <;> rfl

/-- Settles O42: the word load reads the four bytes stored, the byte loads one of them. -/
theorem loadSeesEarlierStore : Obligations.LoadSeesEarlierStore := by
  rintro s t rs1 rs2 rd imm a hm rfl ha hexec
  obtain rfl := exec_sw_admitted ha hexec
  refine ⟨fun hread => ?_, fun k hk => ⟨byteAt_of_stored hm _ _ hk, fun r off hadr hread => ?_⟩⟩
  · refine does_of_load rfl (State.memRead_admitted _ hread) ?_
    exact (congrArg (fun bs => BitVec.ofNat 32 (ofBytesLE bs)) (readBytes_four_of_stored hm _ _)).trans
      (ofNat_ofBytesLE_toBytesLE_four _)
  · have hbyte := byteAt_of_stored hm (s.readReg rs1 + imm.signExtend 32) (s.readReg rs2) hk
    rw [← hadr] at hread hbyte
    have hv := (readsAreLittleEndian _ _).1 hread
    rw [State.byte, hbyte] at hv
    exact ⟨does_of_load rfl hv (signExtend_toNat (by decide) (by decide) _),
      does_of_load rfl hv (BitVec.ofNat_toNat 32 _)⟩

/-! ## The reference memory -/

/-- Settles O44: the verdict of the reference collaborator is the range test of its RAM (R40). -/
theorem referenceRamServesItsRange : Obligations.ReferenceRamServesItsRange := by
  intro s kind a n h
  rw [State.admits, h]
  exact decide_eq_true_iff

end Sys2Proof.Machine


/-!
PROOFS. The other branches, `jalr`, differences and comparisons, upper immediates and the trap (42_control_transfer.md
R120 to R129; 44_alu_immediate.md, 45_alu_register.md; 47_upper_immediate.md; 48_terminal.md R231).
-/

namespace Sys2Proof.Machine

/-! ## Control transfer -/

theorem not_lessSigned_iff (a b : Word) : (!lessSigned a b) = true ↔ a.toInt ≥ b.toInt := by
  simp [lessSigned]

theorem not_lessUnsigned_iff (a b : Word) : (!lessUnsigned a b) = true ↔ a.toNat ≥ b.toNat := by
  simp [lessUnsigned]

/-- Settles O34: each branch tests its own relation of the two source registers. -/
theorem branchRelationTargets : Obligations.BranchRelationTargets := by
  rintro s rs1 rs2 off target rfl
  exact ⟨does_of_branchIf rfl rfl bne_iff_ne, does_of_branchIf rfl rfl decide_eq_true_iff,
    does_of_branchIf rfl rfl (not_lessSigned_iff _ _), does_of_branchIf rfl rfl decide_eq_true_iff,
    does_of_branchIf rfl rfl (not_lessUnsigned_iff _ _)⟩

/-- Settles O36: the target is computed from the bundle, whose `src1` was read before the link is written. -/
theorem jalrLinksAndJumps : Obligations.JalrLinksAndJumps := fun s rd rs1 imm =>
  ⟨_, rfl, add_signExtend_eq_ofInt (s.readReg rs1) imm ▸ link_holds s rd s.snpc (s.readReg rs1 + imm.signExtend 32)⟩

/-! ## Differences and comparisons -/

theorem sub_eq_ofInt_toInt (a b : Word) : a - b = BitVec.ofInt 32 (a.toInt - b.toInt) := by
  rw [Int.sub_eq_add_neg, BitVec.ofInt_add, BitVec.ofInt_neg, BitVec.ofInt_toInt, BitVec.ofInt_toInt,
    BitVec.sub_eq_add_neg]

theorem boolWord_decide (p : Prop) [Decidable p] : boolWord (decide p) = if p then 1#32 else 0#32 := by
  simp only [boolWord, decide_eq_true_iff]

/-- Comparing with a sign-extended immediate compares with its signed value. -/
theorem lessSigned_signExtend (a : Word) (imm : BitVec 12) :
    lessSigned a (imm.signExtend 32) = decide (a.toInt < imm.toInt) := by
  rw [lessSigned, BitVec.toInt_signExtend_of_le (by decide)]

/-- Settles O46: the difference modulo 2^32, and each comparison as the word 1 or 0. -/
theorem differencesAndComparisons : Obligations.DifferencesAndComparisons := fun _ _ _ _ _ =>
  ⟨does_of_writeReg_eq (sub_eq_ofInt_toInt _ _) rfl,
    does_of_writeReg_eq ((congrArg boolWord (lessSigned_signExtend _ _)).trans (boolWord_decide _)) rfl,
    does_of_writeReg_eq (boolWord_decide _) rfl, does_of_writeReg_eq (boolWord_decide _) rfl,
    does_of_writeReg_eq (boolWord_decide _) rfl⟩

/-! ## Upper immediates -/

/-- Shifting left by 12 is multiplying by 2^12. -/
theorem append_zeros_eq_ofNat (imm20 : BitVec 20) : imm20 ++ 0#12 = BitVec.ofNat 32 (imm20.toNat * 2 ^ 12) := by
  apply BitVec.eq_of_toNat_eq
  have := imm20.isLt
  rw [toNat_append_eq_mul_add, BitVec.toNat_ofNat, BitVec.toNat_ofNat]
  omega

/-- Settles O55: `lui` writes the shifted immediate, `auipc` its 32-bit sum with `pc`. -/
theorem upperImmediates : Obligations.UpperImmediates := by
  intro s rd imm20
  refine ⟨does_of_writeReg_eq (append_zeros_eq_ofNat imm20) rfl, does_of_writeReg_eq ?_ rfl⟩
  show s.pc + (imm20 ++ 0#12) = _
  rw [append_zeros_eq_ofNat, BitVec.ofNat_add, BitVec.ofNat_toNat, BitVec.setWidth_eq]

/-! ## The trap -/

/-- Settles O56: the trap's answer is a raised condition that carries the register read before the step. -/
theorem trapEndsRunWithExitCode : Obligations.TrapEndsRunWithExitCode := ⟨rfl, fun _ => does_of_raise rfl⟩

end Sys2Proof.Machine


/-!
PROOFS. The mixed product, the agreement of the halves, and division (46_muldiv.md R200 to R209).
-/

namespace Sys2Proof.Machine

/-! ## Products -/

/-- The value of `mulhsu` (R204). -/
theorem highHalf_toInt_mul_toNat (a b : Word) :
    highHalf (a.toInt * b.toNat) = (a.signExtend 64 * b.setWidth 64).extractLsb' 32 32 := by
  rw [highHalf_eq_extractLsb', BitVec.ofInt_mul, BitVec.ofInt_natCast, BitVec.ofNat_toNat, BitVec.signExtend]

/-- Settles O50: `mulhsu` writes the high half of the mixed product. -/
theorem mixedProductHighHalf : Obligations.MixedProductHighHalf := fun _ _ _ _ =>
  does_of_writeReg_eq (highHalf_toInt_mul_toNat _ _) rfl

/-- The low half is the same for the signed and the unsigned product, since they differ by a multiple of 2^32. -/
theorem ofNat_toNat_mul_toNat_eq_ofInt (a b : Word) :
    BitVec.ofNat 32 (a.toNat * b.toNat) = BitVec.ofInt 32 (a.toInt * b.toInt) := by
  rw [BitVec.ofNat_mul, BitVec.ofInt_mul, BitVec.ofNat_toNat, BitVec.ofNat_toNat, BitVec.ofInt_toInt,
    BitVec.ofInt_toInt, BitVec.setWidth_eq, BitVec.setWidth_eq]

/-- The unsigned product fits 64 bits, so its halves give it back. -/
theorem highHalf_mul_add_lowHalf (a b : Word) :
    (highHalf (a.toNat * b.toNat)).toNat * 2 ^ 32 + (BitVec.ofNat 32 (a.toNat * b.toNat)).toNat =
      a.toNat * b.toNat := by
  have hlt : a.toNat * b.toNat < 2 ^ 32 * 2 ^ 32 := Nat.mul_lt_mul'' a.isLt b.isLt
  rw [highHalf, ← Nat.cast_mul, BitVec.toNat_ofInt, BitVec.toNat_ofNat]
  omega

/-- The signed product lies between -2^62 and 2^62. -/
theorem natAbs_toInt_mul_toInt_le (a b : Word) : (a.toInt * b.toInt).natAbs ≤ 2 ^ 31 * 2 ^ 31 := by
  have ha := a.toInt_lt
  have ha' := a.le_toInt
  have hb := b.toInt_lt
  have hb' := b.le_toInt
  rw [Int.natAbs_mul]
  exact Nat.mul_le_mul (by omega) (by omega)

/-- The signed product fits 64 bits, so its halves give it back. -/
theorem highHalf_mul_add_lowHalf_signed (a b : Word) :
    (highHalf (a.toInt * b.toInt)).toInt * 2 ^ 32 + (BitVec.ofNat 32 (a.toNat * b.toNat)).toNat =
      a.toInt * b.toInt := by
  have hle := natAbs_toInt_mul_toInt_le a b
  rw [ofNat_toNat_mul_toNat_eq_ofInt, highHalf, BitVec.toNat_ofInt, BitVec.toInt_ofInt_eq_self (by decide)]
  · omega
  · omega
  · omega

/-- Settles O51: `mul` writes the low half of both products. -/
theorem productHalvesAgree : Obligations.ProductHalvesAgree := fun _ _ _ _ =>
  ⟨_, _, _, does_of_writeReg rfl, does_of_writeReg rfl, does_of_writeReg rfl, highHalf_mul_add_lowHalf _ _,
    highHalf_mul_add_lowHalf_signed _ _⟩

/-! ## Unsigned division -/

section
variable (p : DivPolicy) (a : Word) {b : Word}

theorem toNat_quotientUnsigned (hb : b ≠ 0#32) : (quotientUnsigned p a b).toNat = a.toNat / b.toNat := by
  rw [quotientUnsigned, if_neg hb, BitVec.toNat_ofNat, Nat.mod_eq_of_lt ((Nat.div_le_self _ _).trans_lt a.isLt)]

theorem toNat_remainderUnsigned (hb : b ≠ 0#32) : (remainderUnsigned p a b).toNat = a.toNat % b.toNat := by
  rw [remainderUnsigned, if_neg hb, BitVec.toNat_ofNat, Nat.mod_eq_of_lt ((Nat.mod_le _ _).trans_lt a.isLt)]

end

/-- Settles O52: the policy's result at zero, else quotient and remainder of the unsigned values. -/
theorem unsignedDivision : Obligations.UnsignedDivision := by
  intro s rd rs1 rs2 a b ha hb
  subst ha hb
  refine ⟨fun hb => ⟨does_of_writeReg_eq (if_pos hb) rfl, does_of_writeReg_eq (if_pos hb) rfl⟩,
    fun hb => ⟨quotientUnsigned s.params.divPolicy (s.readReg rs1) (s.readReg rs2),
      remainderUnsigned s.params.divPolicy (s.readReg rs1) (s.readReg rs2), does_of_writeReg rfl, does_of_writeReg rfl,
      ?_, ?_⟩⟩
  · rw [toNat_quotientUnsigned _ _ hb, toNat_remainderUnsigned _ _ hb, Nat.div_add_mod']
  · have hpos : 0 < (s.readReg rs2).toNat := Nat.pos_of_ne_zero (BitVec.toNat_ne.mp hb)
    rw [toNat_remainderUnsigned _ _ hb]
    exact Nat.mod_lt _ hpos

/-! ## Signed division -/

/-- The quotient leaves the signed range only in the overflow corner. -/
theorem tdiv_in_range {x y : Int} (hx : -2 ^ 31 ≤ x) (hx' : x < 2 ^ 31) (hy : y ≠ 0) (h : ¬ (x = -2 ^ 31 ∧ y = -1)) :
    -2 ^ 31 ≤ x.tdiv y ∧ x.tdiv y < 2 ^ 31 := by
  by_cases hone : y.natAbs = 1
  · obtain rfl | rfl : y = 1 ∨ y = -1 := by omega
    · rw [Int.tdiv_one]
      exact ⟨hx, hx'⟩
    · rw [Int.tdiv_neg, Int.tdiv_one]
      omega
  · have hle : (x.tdiv y).natAbs ≤ x.natAbs / 2 := by
      rw [Int.natAbs_tdiv]
      exact Nat.div_le_div_left (by omega) (by decide)
    omega

theorem natAbs_tmod_lt (x : Int) {y : Int} (hy : y ≠ 0) : (x.tmod y).natAbs < y.natAbs := by
  rw [Int.natAbs_tmod]
  exact Nat.mod_lt _ (Int.natAbs_pos.mpr hy)

/-- A remainder that is not zero has the dividend's sign. -/
theorem tmod_eq_zero_or_neg_iff (x y : Int) : x.tmod y = 0 ∨ (x.tmod y < 0 ↔ x < 0) := by
  have hsign := Int.sign_tmod x y
  split at hsign
  · exact .inl (Int.sign_eq_zero_iff_zero.mp hsign)
  · exact .inr (by rw [← Int.sign_eq_neg_one_iff_neg, hsign, Int.sign_eq_neg_one_iff_neg])

theorem toInt_ne_zero {b : Word} (hb : b ≠ 0#32) : b.toInt ≠ 0 := fun h =>
  hb (BitVec.toInt_inj.mp h)

theorem signedOverflow_iff (a b : Word) : signedOverflow a b = true ↔ a.toInt = -2 ^ 31 ∧ b.toInt = -1 := by
  have ha : a = 0x80000000#32 ↔ a.toInt = -2 ^ 31 := (BitVec.toInt_inj (y := 0x80000000#32)).symm
  have hb : b = 0xffffffff#32 ↔ b.toInt = -1 := (BitVec.toInt_inj (y := 0xffffffff#32)).symm
  rw [signedOverflow, decide_eq_true_iff, ha, hb]

section
variable (p : DivPolicy) {a b : Word} (hb : b ≠ 0#32) (ho : signedOverflow a b = false)
include hb ho

theorem toInt_quotientSigned : (quotientSigned p a b).toInt = a.toInt.tdiv b.toInt := by
  have hcorner : ¬ (a.toInt = -2 ^ 31 ∧ b.toInt = -1) := by
    rw [← signedOverflow_iff, ho]
    decide
  obtain ⟨hlow, hhigh⟩ := tdiv_in_range a.le_toInt a.toInt_lt (toInt_ne_zero hb) hcorner
  rw [quotientSigned, if_neg hb, ho]
  exact BitVec.toInt_ofInt_eq_self (by decide) hlow hhigh

theorem toInt_remainderSigned : (remainderSigned p a b).toInt = a.toInt.tmod b.toInt := by
  have hlt := natAbs_tmod_lt a.toInt (toInt_ne_zero hb)
  have hlow := b.le_toInt
  have hhigh := b.toInt_lt
  rw [remainderSigned, if_neg hb, ho, ← Int.tmod_def]
  exact BitVec.toInt_ofInt_eq_self (by decide) (by omega) (by omega)

end

/-- Settles O53: outside the corners both values are in range, so `div` and `rem` write the truncating quotient and
its remainder. -/
theorem signedDivisionTruncates : Obligations.SignedDivisionTruncates := by
  intro s rd rs1 rs2 a b ha hb hne hcorner
  have ho : signedOverflow a b = false := decide_eq_false hcorner
  refine ⟨quotientSigned s.params.divPolicy a b, remainderSigned s.params.divPolicy a b,
    does_of_writeReg (by rw [ha, hb]; rfl), does_of_writeReg (by rw [ha, hb]; rfl), ?_⟩
  rw [toInt_quotientSigned _ hne ho, toInt_remainderSigned _ hne ho]
  exact ⟨Int.tdiv_mul_add_tmod _ _, natAbs_tmod_lt _ (toInt_ne_zero hne), tmod_eq_zero_or_neg_iff _ _⟩

/-! ## The corners -/

/-- In a corner `div` answers the policy's result. -/
theorem quotientSigned_corner (p : DivPolicy) {a b : Word} (h : b = 0#32 ∨ (a = 0x80000000#32 ∧ b = 0xffffffff#32)) :
    quotientSigned p a b = DivPolicy.result p .div a b := by
  rcases h with hb | ⟨ha, hb⟩
  · exact if_pos hb
  · subst ha hb
    rfl

/-- In a corner `rem` answers the policy's result. -/
theorem remainderSigned_corner (p : DivPolicy) {a b : Word} (h : b = 0#32 ∨ (a = 0x80000000#32 ∧ b = 0xffffffff#32)) :
    remainderSigned p a b = DivPolicy.result p .rem a b := by
  rcases h with hb | ⟨ha, hb⟩
  · exact if_pos hb
  · subst ha hb
    rfl

/-- The first row of the default table (R201). -/
theorem default_results_zero {p : DivPolicy} (a : Word) {b : Word} (hp : p = .specDefault) (hb : b = 0#32) :
    quotientSigned p a b = 0xffffffff#32 ∧ quotientUnsigned p a b = 0xffffffff#32 ∧
      remainderSigned p a b = a ∧ remainderUnsigned p a b = a := by
  subst hp hb
  exact ⟨rfl, rfl, rfl, rfl⟩

/-- The second row of the default table (R201): for the unsigned instructions it is no corner. -/
theorem default_results_overflow {p : DivPolicy} {a b : Word} (hp : p = .specDefault) (ha : a = 0x80000000#32)
    (hb : b = 0xffffffff#32) :
    quotientSigned p a b = 0x80000000#32 ∧ quotientUnsigned p a b = 0#32 ∧
      remainderSigned p a b = 0#32 ∧ remainderUnsigned p a b = 0x80000000#32 := by
  subst hp ha hb
  exact ⟨rfl, rfl, rfl, rfl⟩

/-- Settles O54: in its corners each instruction writes the policy's result, which the default table gives; the
unsigned instructions have no overflow corner and divide there. -/
theorem divisionCorners : Obligations.DivisionCorners := by
  intro s rd rs1 rs2 a b ha hb
  subst ha hb
  refine ⟨fun h => ⟨does_of_writeReg_eq (quotientSigned_corner _ h) rfl,
      does_of_writeReg_eq (remainderSigned_corner _ h) rfl⟩,
    fun h => ⟨does_of_writeReg_eq (if_pos h) rfl, does_of_writeReg_eq (if_pos h) rfl⟩,
    fun hp hzero => ?_, fun hp hmin hneg => ?_⟩
  · obtain ⟨hdiv, hdivu, hrem, hremu⟩ := default_results_zero (s.readReg rs1) hp hzero
    exact ⟨does_of_writeReg_eq hdiv rfl, does_of_writeReg_eq hdivu rfl, does_of_writeReg_eq hrem rfl,
      does_of_writeReg_eq hremu rfl⟩
  · obtain ⟨hdiv, hdivu, hrem, hremu⟩ := default_results_overflow hp hmin hneg
    exact ⟨does_of_writeReg_eq hdiv rfl, does_of_writeReg_eq hdivu rfl, does_of_writeReg_eq hrem rfl,
      does_of_writeReg_eq hremu rfl⟩

end Sys2Proof.Machine


/-!
PROOFS. Bit fields, sign extension, pattern strings and the reset (40_extractor_and_operands.md R80 to R83;
30_encoding.md R65 to R67; 10_state.md R24; 70_reset_and_hazards.md R271).
-/

namespace Sys2Proof

/-! ## The extractor -/

/-- Settles O17: `bits` tests exactly its precondition. -/
theorem bitsRefuseBadRange : Obligations.BitsRefuseBadRange := by
  intro w hi lo
  rw [bits, ite_eq_right_iff]
  simp

/-- Settles O18: the bits of a sign extension are those of the field below its width, and its top bit above. -/
theorem signExtendBits : Obligations.SignExtendBits := by
  intro value width h1 h2 k hk
  rw [Machine.signExtend_eq_signExtend_ofNat value h1 h2, BitVec.getLsbD_signExtend]
  split
  · next hlt => simp only [BitVec.getLsbD_ofNat, hk, hlt, decide_true, Bool.true_and]
  · have htop : width - 1 < width := by omega
    simp only [BitVec.msb_eq_getLsbD_last, BitVec.getLsbD_ofNat, hk, htop, decide_true, Bool.true_and]

/-- The two's-complement reading of a number as a field of a given width. -/
theorem toInt_ofNat_of_lt {v width : Nat} (h1 : 1 ≤ width) (hv : v < 2 ^ width) :
    (BitVec.ofNat width v).toInt = if v < 2 ^ (width - 1) then (v : Int) else v - 2 ^ width := by
  have hpow : 2 ^ width = 2 * 2 ^ (width - 1) := by rw [← Nat.pow_succ', Nat.succ_eq_add_one, Nat.sub_add_cancel h1]
  rw [BitVec.toInt_eq_toNat_cond, BitVec.toNat_ofNat, Nat.mod_eq_of_lt hv, hpow]
  simp only [Nat.mul_lt_mul_left (Nat.succ_pos 1)]
  rw [← hpow, Nat.cast_pow, Nat.cast_ofNat]

/-- Cutting the field out of its sign extension gives it back: below the width no bit has changed. -/
theorem field_signExtend {v width : Nat} (h1 : 1 ≤ width) (h2 : width ≤ 32) (hv : v < 2 ^ width) :
    field (signExtend v width) (width - 1) 0 = v := by
  refine Nat.eq_of_testBit_eq fun k => ?_
  rw [testBit_field, Nat.sub_zero, Nat.zero_add]
  by_cases hk : k < width
  · rw [signExtendBits v width h1 h2 k (by omega), if_pos hk, decide_eq_true (by omega), Bool.true_and]
  · have hhigh : v.testBit k = false :=
      Nat.testBit_lt_two_pow (hv.trans_le (Nat.pow_le_pow_right (by decide) (by omega)))
    rw [hhigh, decide_eq_false (by omega), Bool.false_and]

/-- Settles O19: the signed reading of a sign extension is that of the field. -/
theorem signExtendIsTwosComplement : Obligations.SignExtendIsTwosComplement := by
  intro v width h1 h2 hv
  refine ⟨?_, ?_⟩
  · rw [Machine.signExtend_eq_signExtend_ofNat v h1 h2, BitVec.toInt_signExtend_of_le h2, toInt_ofNat_of_lt h1 hv]
  · rw [bits_of_range _ (Nat.zero_le _) (by omega), field_signExtend h1 h2 hv]

/-! ## Pattern strings -/

/-- Reading binary digits, most significant first: the digit at place `j` from the right is bit `j`. -/
theorem testBit_foldl_digits (f : Char → Bool) (cs : List Char) (n j : Nat) :
    (cs.foldl (fun n c => 2 * n + (f c).toNat) n).testBit j =
      if j < cs.length then f (cs.getD (cs.length - 1 - j) '?') else n.testBit (j - cs.length) := by
  induction cs generalizing n with
  | nil => rfl
  | cons c rest ih =>
    rw [List.foldl_cons, ih, ← Nat.bit_val, List.length_cons]
    rcases Nat.lt_trichotomy j rest.length with hlt | rfl | hgt
    · have hidx : rest.length + 1 - 1 - j = rest.length - 1 - j + 1 := by omega
      rw [if_pos hlt, if_pos (by omega), hidx, List.getD_cons_succ]
    · rw [if_neg (by omega), if_pos (by omega), Nat.sub_self, Nat.testBit_bit_zero, Nat.add_sub_cancel, Nat.sub_self,
        List.getD_cons_zero]
    · have hidx : j - rest.length = j - (rest.length + 1) + 1 := by omega
      rw [if_neg (by omega), if_neg (by omega), hidx, Nat.testBit_bit_succ]

section
variable {cs : List Char} (hlen : cs.length = 32) {k : Nat} (hk : k < 32)
include hlen hk

/-- The key bit of a character says that it is `1`, the leftmost being bit 31 (R66). -/
theorem getLsbD_patternKey : (BitVec.ofNat 32 (patternKey cs)).getLsbD (31 - k) = decide (cs.getD k '?' = '1') := by
  have hdigits : patternKey cs = cs.foldl (fun n c => 2 * n + (decide (c = '1')).toNat) 0 := by
    simp only [patternKey, Bool.toNat, Bool.cond_decide]
  rw [BitVec.getLsbD_ofNat, decide_eq_true (by omega), Bool.true_and, hdigits, testBit_foldl_digits, hlen,
    if_pos (by omega), show 32 - 1 - (31 - k) = k by omega]

/-- The mask bit of a character says that it is fixed (R66). -/
theorem getLsbD_patternMask : (BitVec.ofNat 32 (patternMask cs)).getLsbD (31 - k) = decide (cs.getD k '?' ≠ '?') := by
  have hdigits : patternMask cs = cs.foldl (fun n c => 2 * n + (decide (c ≠ '?')).toNat) 0 := by
    simp only [patternMask, Bool.toNat, Bool.cond_decide, ite_not]
  rw [BitVec.getLsbD_ofNat, decide_eq_true (by omega), Bool.true_and, hdigits, testBit_foldl_digits, hlen,
    if_pos (by omega), show 32 - 1 - (31 - k) = k by omega]

end

theorem word_eq_iff_bits_from_left {v w : Word} :
    v = w ↔ ∀ k < 32, v.getLsbD (31 - k) = w.getLsbD (31 - k) := by
  refine ⟨fun h _ _ => h ▸ rfl, fun h => BitVec.eq_of_getLsbD_eq fun j hj => ?_⟩
  have := h (31 - j) (by omega)
  rwa [Nat.sub_sub_self (by omega)] at this

/-- Masking by a character leaves its bit exactly when the character is free or the bit is the one it fixes. -/
theorem masked_bit_iff (b : Bool) (c : Char) :
    (b && decide (c ≠ '?')) = decide (c = '1') ↔ c = '?' ∨ b = decide (c = '1') := by
  by_cases hc : c = '?'
  · subst hc
    simp
  · simp [hc]

/-- Settles O13: key and mask are read off the characters bit by bit, and so is matching. -/
theorem patternIsKeyAndMask : Obligations.PatternIsKeyAndMask := by
  intro text key mask hparse
  rw [parsePattern, Option.ite_none_right_eq_some] at hparse
  obtain ⟨⟨hlen, _⟩, hpair⟩ := hparse
  obtain ⟨rfl, rfl⟩ := Prod.mk.inj (Option.some.inj hpair)
  refine ⟨fun k hk => ?_, ?_, fun w => ?_⟩
  · rw [getLsbD_patternMask hlen hk, getLsbD_patternKey hlen hk, decide_eq_true_iff, decide_eq_true_iff]
    exact ⟨Iff.rfl, Iff.rfl⟩
  · refine word_eq_iff_bits_from_left.mpr fun k hk => ?_
    rw [BitVec.getLsbD_and, BitVec.getLsbD_not, getLsbD_patternMask hlen hk, getLsbD_patternKey hlen hk]
    by_cases hone : (significant text).getD k '?' = '1'
    · rw [hone]
      simp
    · simp only [hone, decide_false, Bool.false_and, BitVec.getLsbD_zero]
  · rw [word_eq_iff_bits_from_left]
    refine forall₂_congr fun k hk => ?_
    rw [BitVec.getLsbD_and, getLsbD_patternMask hlen hk, getLsbD_patternKey hlen hk, masked_bit_iff]

/-- Parsing a list of characters: length and characters are tested, key and mask computed, on the significant ones. -/
theorem parsePattern_ofList {cs : List Char} {key mask : Word}
    (hlen : (cs.filter (fun c => c != ' ')).length = 32)
    (hall : (cs.filter (fun c => c != ' ')).all (fun c => c == '0' || c == '1' || c == '?') = true)
    (hkey : BitVec.ofNat 32 (patternKey (cs.filter (fun c => c != ' '))) = key)
    (hmask : BitVec.ofNat 32 (patternMask (cs.filter (fun c => c != ' '))) = mask) :
    parsePattern (String.ofList cs) = some (key, mask) := by
  have hsig : significant (String.ofList cs) = cs.filter (fun c => c != ' ') := by
    rw [significant, String.toList_ofList]
  subst hkey hmask
  rw [parsePattern, hsig]
  refine if_pos ⟨hlen, fun c hc => ?_⟩
  simpa [or_assoc] using List.all_eq_true.mp hall c hc

/-- Every row's string is its key and mask. -/
theorem parsePattern_pattern : ∀ e ∈ patternTable, parsePattern e.pattern = some (e.key, e.mask) := by
  intro e he
  fin_cases he <;> exact parsePattern_ofList rfl rfl rfl rfl

/-- Settles O14: the strings are parsed row by row; the rest is the table as it stands. -/
theorem rowsAgreeWithPatterns : Obligations.RowsAgreeWithPatterns :=
  ⟨fun e he => ⟨parsePattern_pattern e he, Machine.action_tag e he⟩, rfl, rfl, rfl, rfl⟩

/-- Settles O15 by decoding the eleven words. -/
theorem specWordsDecode : Obligations.SpecWordsDecode := by
  unfold Obligations.SpecWordsDecode
  decide

end Sys2Proof

namespace Sys2Proof.Machine

/-! ## Reset -/

/-- Settles O1: register 0 is cleared, the others are drawn from 31 zeros, and nothing is in memory. -/
theorem resetStateHoldsNamedValues : Obligations.ResetStateHoldsNamedValues := by
  refine ⟨fun r => ?_, rfl, rfl, rfl, rfl, fun _ => rfl, rfl⟩
  cases r using Fin.cases with
  | zero => exact State.readReg_resetWith_zero _ _ _ _
  | succ k => simp [State.reset]

/-- Settles O2: a new run is the reset for the old parameters. -/
theorem newRunIsReset : Obligations.NewRunIsReset := by
  intro s xs m
  rw [State.newRun]
  exact ⟨rfl, rfl, State.readReg_resetWith_zero _ _ _ _, State.readReg_resetWith_succ _ _ _ _,
    State.resetWith_mem _ _ _ _, State.resetWith_params _ _ _ _⟩

end Sys2Proof.Machine
